-- ==== Sys2Proof/Word.lean ====
section
/-! DEFINITION. The word types of the engine: widths of spec/00_scope.md R6, R7 and spec/10_state.md R22 to R28. -/

namespace Sys2Proof

/-- A 64-bit word: operand, result, index, accumulator or direction number (R6, R7, R22, R24). -/
abbrev Word := BitVec 64

/-- A 32-bit word: the command word and the bounded operands (R7, R82, R83). -/
abbrev Half := BitVec 32

/-- A dimension number. The register `DIM` has 5 bits and every value 0 to 31 is legal (R23). -/
abbrev Dim := BitVec 5

/-- A bit position of the direction table, 0-based (R60). -/
abbrev BitPos := Fin 63

/-- A binary64 value, held as its IEEE bit pattern `bits64` (R12). -/
abbrev F64 := BitVec 64

end Sys2Proof
end

