-- ==== Sys2Proof/Syntax.lean ====
section
/-! DEFINITION. The commands: one constructor per row of spec/opcode_table.json, and the triple a command is
presented as (spec/30_encoding.md R81). -/

namespace Sys2Proof

/-- A command as presented on the port: the command word `CW` and the operand words `A` and `B` (R81). -/
structure Command where
  cw : Half
  a  : Word
  b  : Word
deriving DecidableEq, Repr, Inhabited

/-- The decoded commands (R86, R87). A field is an operand word the command reads (R83); ignored operand
words have no field. -/
inductive Instr
  /-- `GETDIMCNT` (R178). -/
  | getdimcnt
  /-- `SETIDX`: `a` is the index (R170). -/
  | setidx (a : Word)
  /-- `ADVIDX` (R172). -/
  | advidx
  /-- `SETDIM`: `a` is the dimension (R174). -/
  | setdim (a : Word)
  /-- `NEXTVAL` (R206). -/
  | nextval
  /-- `NEXTUINT`: `a[31:0]` is min, `b[31:0]` is max (R208). -/
  | nextuint (a b : Word)
  /-- `NEXTDBL`: `a` and `b` are the bit patterns of min and max (R211). -/
  | nextdbl (a b : Word)
  /-- `SEEDDIMS`: `a[31:0]` is requestedDims (R176). -/
  | seeddims (a : Word)
  /-- `TBLRD`: `a` is the dimension, `b` the bit position (R117). -/
  | tblrd (a b : Word)
  /-- `RDREG.IDX` (R230). -/
  | rdregIdx
  /-- `RDREG.DIM` (R231). -/
  | rdregDim
  /-- `RDREG.ACC` (R232). -/
  | rdregAcc
  /-- `RDREG.FR` (R233). -/
  | rdregFr
  /-- `RDREG.PROD` (R234). -/
  | rdregProd
  /-- `RDREG.STATUS` (R235). -/
  | rdregStatus
  /-- `RDREG.CONFIG` (R236). -/
  | rdregConfig
  /-- `RDREG.CVAL`: `a` is the dimension (R237). -/
  | rdregCval (a : Word)
  /-- `RDREG.CIDX`: `a` is the dimension (R238). -/
  | rdregCidx (a : Word)
deriving DecidableEq, Repr, Inhabited

end Sys2Proof
end

