-- ==== Sys2Proof/WellFormed.lean ====
section
/-! DEFINITION. Which commands can be encoded: the "must be 0" operand halves of spec/30_encoding.md R83. -/

namespace Sys2Proof

/-- The upper half `[63:32]` of an operand word (R83). -/
def upperHalf (w : Word) : Half := w.extractLsb' 32 32

/-- The lower half `[31:0]` of an operand word (R83). -/
def lowerHalf (w : Word) : Half := w.extractLsb' 0 32

/-- A command is well formed when the operand bits that R83 says must be 0 are 0. -/
def Instr.wellFormed : Instr → Bool
  | .nextuint a b => upperHalf a == 0 && upperHalf b == 0
  | .seeddims a => upperHalf a == 0
  | .getdimcnt | .setidx _ | .advidx | .setdim _ | .nextval | .nextdbl _ _ | .tblrd _ _
  | .rdregIdx | .rdregDim | .rdregAcc | .rdregFr | .rdregProd | .rdregStatus | .rdregConfig
  | .rdregCval _ | .rdregCidx _ => true

end Sys2Proof
end

