-- ==== Sys2Proof/Decode.lean ====
section
/-! DEFINITION. The decoder of spec/30_encoding.md R82 to R89, total on every command, and the encoder and
assembly forms of R90 and R91. -/

namespace Sys2Proof

/-- Why a command is `ILLEGAL`, one name per check of R89. -/
inductive DecodeReject
  | reservedOpcode
  | reservedBits
  | selectorNotZero
  | reservedSelector
  | operandUpperHalf
deriving DecidableEq, Repr

/-- `OPC`, bits 7:0 of the command word (R82). -/
def opcOf (cw : Half) : BitVec 8 := cw.extractLsb' 0 8

/-- `SEL`, bits 11:8 of the command word (R82). -/
def selOf (cw : Half) : BitVec 4 := cw.extractLsb' 8 4

/-- `RSV`, bits 31:12 of the command word (R82). -/
def rsvOf (cw : Half) : BitVec 20 := cw.extractLsb' 12 20

/-- The register a legal `RDREG` selector names (R87). -/
def decodeSelector (sel : BitVec 4) (a : Word) : Except DecodeReject Instr :=
  match sel.toNat with
  | 0 => .ok .rdregIdx
  | 1 => .ok .rdregDim
  | 2 => .ok .rdregAcc
  | 3 => .ok .rdregFr
  | 4 => .ok .rdregProd
  | 5 => .ok .rdregStatus
  | 6 => .ok .rdregConfig
  | 7 => .ok (.rdregCval a)
  | 8 => .ok (.rdregCidx a)
  | _ => .error .reservedSelector

/-- The command a legal opcode names (R86), with the operands of R83. -/
def decodeOpcode (c : Command) : Except DecodeReject Instr :=
  match (opcOf c.cw).toNat with
  | 0x01 => .ok .getdimcnt
  | 0x02 => .ok (.setidx c.a)
  | 0x03 => .ok .advidx
  | 0x04 => .ok (.setdim c.a)
  | 0x05 => .ok .nextval
  | 0x06 => .ok (.nextuint c.a c.b)
  | 0x07 => .ok (.nextdbl c.a c.b)
  | 0x08 => .ok (.seeddims c.a)
  | 0x09 => .ok (.tblrd c.a c.b)
  | 0x0A => decodeSelector (selOf c.cw) c.a
  | _ => .error .reservedOpcode

/-- The decoding procedure of R89: its six checks in order, then the command. -/
def decode (c : Command) : Except DecodeReject Instr :=
  if opcOf c.cw = 0x00 ∨ 0x0B ≤ (opcOf c.cw).toNat then .error .reservedOpcode
  else if rsvOf c.cw ≠ 0 then .error .reservedBits
  else if opcOf c.cw ≠ 0x0A ∧ selOf c.cw ≠ 0 then .error .selectorNotZero
  else if opcOf c.cw = 0x0A ∧ 9 ≤ (selOf c.cw).toNat then .error .reservedSelector
  else if opcOf c.cw = 0x06 ∧ (upperHalf c.a ≠ 0 ∨ upperHalf c.b ≠ 0) then .error .operandUpperHalf
  else if opcOf c.cw = 0x08 ∧ upperHalf c.a ≠ 0 then .error .operandUpperHalf
  else decodeOpcode c

/-- A command from the bits of a table row: `CW` in bits 31:0, `A` in bits 95:32, `B` in bits 159:96; every
bit from `nbits` up is 0 (the layout is the model's, notes/assumptions/3.md). -/
def commandOfBits (nbits w : Nat) : Command :=
  let v := w % 2 ^ nbits
  { cw := BitVec.ofNat 32 v, a := BitVec.ofNat 64 (v >>> 32), b := BitVec.ofNat 64 (v >>> 96) }

/-- The command the decoder reads from a row's bits, none where it refuses them. -/
def decodeTableWord (nbits w : Nat) : Option Instr := (decode (commandOfBits nbits w)).toOption

/-- The command word of each command, written from R82, R86, R87 and R90. -/
def encodeWord : Instr → Half
  | .getdimcnt => 0x00000001
  | .setidx _ => 0x00000002
  | .advidx => 0x00000003
  | .setdim _ => 0x00000004
  | .nextval => 0x00000005
  | .nextuint _ _ => 0x00000006
  | .nextdbl _ _ => 0x00000007
  | .seeddims _ => 0x00000008
  | .tblrd _ _ => 0x00000009
  | .rdregIdx => 0x0000000A
  | .rdregDim => 0x0000010A
  | .rdregAcc => 0x0000020A
  | .rdregFr => 0x0000030A
  | .rdregProd => 0x0000040A
  | .rdregStatus => 0x0000050A
  | .rdregConfig => 0x0000060A
  | .rdregCval _ => 0x0000070A
  | .rdregCidx _ => 0x0000080A

/-- Operand word `A`; 0 where it is ignored (R90). -/
def encodeA : Instr → Word
  | .setidx a | .setdim a | .nextuint a _ | .nextdbl a _ | .seeddims a | .tblrd a _
  | .rdregCval a | .rdregCidx a => a
  | .getdimcnt | .advidx | .nextval | .rdregIdx | .rdregDim | .rdregAcc | .rdregFr | .rdregProd
  | .rdregStatus | .rdregConfig => 0

/-- Operand word `B`; 0 where it is ignored (R90). -/
def encodeB : Instr → Word
  | .nextuint _ b | .nextdbl _ b | .tblrd _ b => b
  | .getdimcnt | .setidx _ | .advidx | .setdim _ | .nextval | .seeddims _ | .rdregIdx | .rdregDim
  | .rdregAcc | .rdregFr | .rdregProd | .rdregStatus | .rdregConfig | .rdregCval _ | .rdregCidx _ => 0

/-- The command an assembler writes for an instruction (R90). -/
def encode (i : Instr) : Command := { cw := encodeWord i, a := encodeA i, b := encodeB i }

/-- A natural number in the `0x` form of R90. -/
def hexText (n : Nat) : String := "0x" ++ String.ofList (Nat.toDigits 16 n)

/-- The assembly line of a command (R90); binary64 operands in the `bits(0x...)` form. -/
def assembly : Instr → String
  | .getdimcnt => "getdimcnt"
  | .setidx a => "setidx " ++ hexText a.toNat
  | .advidx => "advidx"
  | .setdim a => "setdim " ++ hexText a.toNat
  | .nextval => "nextval"
  | .nextuint a b => "nextuint " ++ hexText a.toNat ++ ", " ++ hexText b.toNat
  | .nextdbl a b => "nextdbl bits(" ++ hexText a.toNat ++ "), bits(" ++ hexText b.toNat ++ ")"
  | .seeddims a => "seeddims " ++ hexText a.toNat
  | .tblrd a b => "tblrd " ++ hexText a.toNat ++ ", " ++ hexText b.toNat
  | .rdregIdx => "rdreg idx"
  | .rdregDim => "rdreg dim"
  | .rdregAcc => "rdreg acc"
  | .rdregFr => "rdreg fr"
  | .rdregProd => "rdreg prod"
  | .rdregStatus => "rdreg status"
  | .rdregConfig => "rdreg config"
  | .rdregCval a => "rdreg cval, " ++ hexText a.toNat
  | .rdregCidx a => "rdreg cidx, " ++ hexText a.toNat

/-- The pseudo-instructions of R91. -/
inductive Pseudo
  | reseed (i : Word)
  | nextpoint
  | draw3
  | nextbit
  | rdstatus
  | rdacc
deriving DecidableEq, Repr

/-- The commands a pseudo-instruction expands to, in order (R91). -/
def expandPseudo : Pseudo → List Instr
  | .reseed i => [.setidx i]
  | .nextpoint => [.advidx]
  | .draw3 => [.nextval, .nextval, .nextval]
  | .nextbit => [.nextuint 0 2]
  | .rdstatus => [.rdregStatus]
  | .rdacc => [.rdregAcc]

end Sys2Proof
end

