-- ==== Sys2Proof/Config.lean ====
section
/-! DEFINITION. What an implementation fixes: the parameters of spec/00_scope.md R6 to R9, and the one
content the spec leaves unspecified (the table before the build, R31). An open parameter is an opaque
constant, so that nothing in Lean can know its value. -/

namespace Sys2Proof.Config

/-- One dimension's entry of `DIR_PARAMS` (R110): the degree `s`, the coefficient word `a`, and the
initial direction integers `m_1, m_2, ...` in order. -/
structure DirParam where
  s : Nat
  a : Nat
  m : List Nat
deriving DecidableEq, Repr, Inhabited

/-- `m[k]` of R110, 1-based. An integer the list does not give counts as 0, which fails check 3 of R115
(DESIGN CHOICE, notes/assumptions/5.md). -/
def DirParam.init (p : DirParam) (k : Nat) : Nat := p.m.getD (k - 1) 0

/-- `DIR_PARAMS` for the dimensions 1 to 31: entry `i` is dimension `i + 1` (R8, R110). -/
abbrev DirParams := Vector DirParam 31

/-- `NEXTVAL_SOURCE` (R8): which value `NEXTVAL` and `NEXTDBL` return (R201). -/
inductive NvSource
  | accum
  | remainder
deriving DecidableEq, Repr, Inhabited

/-- The parameters of R8 that are fixed when the block is built (R293). They are no state (R20): the state
carries them unchanged so that every statement ranges over them (notes/assumptions/1.md). -/
structure Params where
  dirParams  : DirParams
  seedBase   : Nat
  seedStride : Nat
  nvSource   : NvSource
deriving DecidableEq, Repr, Inhabited

/-- Dimension count `D` (R6). -/
abbrev dimCount : Nat := 32

/-- Bit positions per dimension `B` (R6). -/
abbrev bitCount : Nat := 63

/-- The renormalization threshold `PREC_BUDGET` (R6). -/
abbrev precBudget : Nat := 2048

/-- The largest polynomial degree `S_MAX` (R7). -/
abbrev sMax : Nat := 16

/-- Every legal index is below this (R7, R22). -/
abbrev idxLimit : Nat := 2 ^ 63

/-- `DIR_PARAMS` of the implementation: open (R8, R9). -/
opaque dirParams : DirParams

/-- `SEED_BASE` of the implementation: open (R8, R177). -/
opaque seedBase : Nat

/-- `SEED_STRIDE` of the implementation: open (R8, R177). -/
opaque seedStride : Nat

/-- `NEXTVAL_SOURCE` of the implementation: open (R8, R201). -/
opaque nvSource : NvSource

/-- `N_ENGINES - 1`: open, and `N_ENGINES` is at least 1 (R8, R273). -/
opaque extraEngines : Nat

/-- The level of the `mode_incr` strap of engine `k` when the block first leaves reset: open (R8, R80). -/
opaque strap : Nat → Bool

/-- Content of the direction table before a build has finished: unspecified and unreadable (R31), a free
value (notes/assumptions/4.md). -/
opaque unbuiltEntry : Nat → Nat → Word

/-- The parameters the implementation was built with. -/
def params : Params :=
  { dirParams := dirParams, seedBase := seedBase, seedStride := seedStride, nvSource := nvSource }

end Sys2Proof.Config
end

