-- ==== Sys2Proof/Machine/Flags.lean ====
section
/-! DEFINITION. The fields of `STATUS` (spec/10_state.md R29) and `CONFIG` (R30), and the fault codes of
spec/60_exceptions.md R250. -/

namespace Sys2Proof.Machine

open Sys2Proof

/-- The fault codes 1 to 7 of R250, by name. -/
inductive FaultCode
  | illegal
  | dimRange
  | idxRange
  | bounds
  | range
  | buildFail
  | halted
deriving DecidableEq, Repr

/-- The number of a fault code in `rsp_cause` and `STATUS.CAUSE` (R250). -/
def faultNumber : FaultCode → BitVec 4
  | .illegal => 1
  | .dimRange => 2
  | .idxRange => 3
  | .bounds => 4
  | .range => 5
  | .buildFail => 6
  | .halted => 7

/-- `STATUS.READY`, bit 0 (R29). -/
def statusReady (w : Word) : Bool := w.getLsbD 0

/-- `STATUS.FAULTED`, bit 1 (R29). -/
def statusFaulted (w : Word) : Bool := w.getLsbD 1

/-- `STATUS.WRAP`, bit 2 (R29). -/
def statusWrap (w : Word) : Bool := w.getLsbD 2

/-- `STATUS.CAUSE`, bits 11:8 (R29). -/
def statusCause (w : Word) : BitVec 4 := w.extractLsb' 8 4

/-- The bits of `STATUS` that read as 0: 7:3 and 63:12 (R29). -/
def statusReserved (w : Word) : Word := w &&& 0xFFFFFFFFFFFFF0F8#64

/-- `STATUS.READY <- 1` (R111). -/
def statusSetReady (w : Word) : Word := w ||| 0x1#64

/-- `flag WRAP`: `STATUS.WRAP <- 1` (R13, R148, R256). -/
def statusSetWrap (w : Word) : Word := w ||| 0x4#64

/-- `STATUS.FAULTED <- 1; STATUS.CAUSE <- c` (R111, R252). -/
def statusSetFault (c : FaultCode) (w : Word) : Word :=
  (w &&& ~~~0xF00#64) ||| 0x2#64 ||| ((faultNumber c).zeroExtend 64 <<< 8)

/-- The value of `CONFIG.NVSRC` for a value source (R30). -/
def nvsrcBit : Config.NvSource → Word
  | .accum => 0
  | .remainder => 1

/-- The word `CONFIG` holds: `MODE`, `NVSRC`, `DCOUNT` 32, `BCOUNT` 63, `BUDGET` 2048 (R30). -/
def configWord (incremental : Bool) (nv : Config.NvSource) : Word :=
  (if incremental then 1#64 else 0#64)
    ||| (nvsrcBit nv <<< 1)
    ||| (BitVec.ofNat 64 Config.dimCount <<< 8)
    ||| (BitVec.ofNat 64 Config.bitCount <<< 16)
    ||| (BitVec.ofNat 64 Config.precBudget <<< 24)

/-- `CONFIG.MODE`, bit 0: true is `INCREMENTAL` (R30). -/
def configIncremental (w : Word) : Bool := w.getLsbD 0

/-- `CONFIG.NVSRC`, bit 1: true is `REMAINDER` (R30). -/
def configRemainder (w : Word) : Bool := w.getLsbD 1

end Sys2Proof.Machine
end

