-- ==== Sys2Proof/Machine/State.lean ====
section
/-! DEFINITION. Everything the spec gives the machine, as plain data (spec/10_state.md), the reasons a step can
stop, and the state after reset (R35). -/

namespace Sys2Proof.Machine

open Sys2Proof

/-- The direction table `V[d][j]`: 32 rows of 63 words (R31, R60). -/
abbrev Table := Vector (Vector Word 63) 32

/-- `BSTATE`, the state of the builder (R32). -/
inductive BState
  | building
  | built
  | failed
deriving DecidableEq, Repr

/-- One entry of the accumulator cache file: an accumulator and the index it corresponds to (R24). -/
structure CacheEntry where
  val : Word
  idx : Word
deriving DecidableEq, Repr, Inhabited

/-- A response: `rsp_err`, `rsp_cause`, `rsp_data` (R85). -/
structure Response where
  err   : Bool
  cause : BitVec 4
  data  : Word
deriving DecidableEq, Repr, Inhabited

/-- One sequence engine (R20, R22 to R30, R33). `strap` is the level of its `mode_incr` pin (R80, R293), and
`observed` the responses its host has taken, oldest first (R299; a field of the model). -/
structure Engine where
  idx      : Word
  dim      : Dim
  cache    : Vector CacheEntry 32
  fr       : F64
  prod     : Word
  status   : Word
  config   : Word
  rsp      : Option Response
  strap    : Bool
  observed : List Response
deriving DecidableEq, Repr

/-- What the outside does to the block (R80, R290, R293, R300). An engine is named by its number. -/
inductive HostEvent
  /-- The host presents a command on an engine's command port. -/
  | command (e : Nat) (c : Command)
  /-- The host takes an engine's response. -/
  | take (e : Nat)
  /-- The `mode_incr` pin of an engine goes to a level. -/
  | strap (e : Nat) (level : Bool)
  /-- `rst` is pulsed. -/
  | reset
deriving DecidableEq, Repr

/-- The state of the block. `lower ++ eng :: upper` are the engines in number order, `eng` the one whose port is
served (R273); `host` is what the outside will do; the first action that can happen is next (a field of the model). -/
structure State where
  params : Config.Params
  bstate : BState
  table  : Table
  lower  : List Engine
  eng    : Engine
  upper  : List Engine
  host   : List HostEvent
deriving DecidableEq, Repr

/-- Why the model's step stops. The faults of spec/60_exceptions.md are no stops: they are next states (R252). -/
inductive Fault
  /-- Raised by the step when the host's next action names an engine number that the block does not have, so
  that there is no such port (R273). Safe: the spec gives no behaviour to a port that does not exist. -/
  | noSuchEngine (e : Nat)
deriving DecidableEq, Repr

/-- Why an instruction would have no meaning. -/
inductive Refusal
  /-- Raised by a dispatch arm of an instruction without a meaning. No arm raises it. Safe. -/
  | notModelled (mnemonic : String)
deriving DecidableEq, Repr

/-- An engine right after reset (R35), with the configuration register made from the strap and
`NEXTVAL_SOURCE` (R30, R293). -/
def Engine.atReset (strap : Bool) (nv : Config.NvSource) (observed : List Response) : Engine :=
  { idx := 0, dim := 0, cache := Vector.replicate 32 { val := 0, idx := 0 }, fr := 0, prod := 1, status := 0,
    config := configWord strap nv, rsp := none, strap := strap, observed := observed }

/-- The table before a build has finished: unspecified (R31). -/
def tableUnbuilt : Table :=
  Vector.ofFn fun d : Fin 32 => Vector.ofFn fun j : Fin 63 => Config.unbuiltEntry d.val j.val

/-- The block right after reset (R35, R290, R291). -/
def State.reset : State :=
  { params := Config.params
    bstate := .building
    table := tableUnbuilt
    lower := []
    eng := Engine.atReset (Config.strap 0) Config.nvSource []
    upper := (List.range Config.extraEngines).map fun k =>
      Engine.atReset (Config.strap (k + 1)) Config.nvSource []
    host := [] }

end Sys2Proof.Machine
end

