-- ==== Sys2Proof/Machine/Builder.lean ====
section
/-! DEFINITION. The direction-table builder: spec/40_table_builder.md R110 to R116. -/

namespace Sys2Proof.Machine

open Sys2Proof

/-- Checks 1 to 3 of R115 for one dimension. -/
def dimParamValid (p : Config.DirParam) : Bool :=
  decide (1 ≤ p.s) && decide (p.s ≤ Config.sMax) && decide (p.a < 2 ^ (p.s - 1)) &&
    (List.range p.s).all fun k => decide (p.init (k + 1) % 2 = 1) && decide (p.init (k + 1) < 2 ^ (k + 1))

/-- `ParamsValid` (R115): every dimension passes checks 1 to 3 and no two have the same `(s, a)`. -/
def paramsValid (ps : Config.DirParams) : Bool :=
  ps.toList.all dimParamValid && decide (ps.toList.map fun p => (p.s, p.a)).Nodup

/-- `BuildDim0` (R112). -/
def buildDim0 (j : Nat) : Word := 1#64 <<< (62 - j)

/-- Coefficient `a_k` of R110: bit `s - 1 - k` of `a`. -/
def coefficient (p : Config.DirParam) (k : Nat) : Bool := p.a.testBit (p.s - 1 - k)

/-- `BuildEntry` (R113, R114) at bit position `j`. `back` is the row built so far, newest entry first, so that
`V[d][j - k]` is `back[k - 1]`. -/
def buildEntry (p : Config.DirParam) (back : List Word) (j : Nat) : Word :=
  if j < p.s then BitVec.ofNat 64 (p.init (j + 1) <<< (62 - j))
  else
    let w := back.getD (p.s - 1) 0
    (List.range (p.s - 1)).foldl
      (fun v i => if coefficient p (i + 1) then v ^^^ back.getD i 0 else v) (w ^^^ (w >>> p.s))

/-- The first `n` entries of a dimension's row, newest first, in increasing `j` (R114). -/
def buildBack (p : Config.DirParam) : Nat → List Word
  | 0 => []
  | n + 1 =>
    let back := buildBack p n
    buildEntry p back n :: back

/-- The row of a dimension `d >= 1` (R111, R113, R114). -/
def buildRow (p : Config.DirParam) : Vector Word 63 :=
  let back := buildBack p 63
  Vector.ofFn fun j : Fin 63 => back.getD (62 - j.val) 0

/-- The row of dimension 0 (R112). -/
def buildRow0 : Vector Word 63 := Vector.ofFn fun j : Fin 63 => buildDim0 j.val

/-- The table of a valid `DIR_PARAMS` (R111, R116). -/
def buildTable (ps : Config.DirParams) : Table :=
  Vector.ofFn fun d : Fin 32 => if h : d.val = 0 then buildRow0 else buildRow (ps[d.val - 1]'(by omega))

/-- `TblRead(d, j)` (R13, R60). -/
def tblRead (t : Table) (d : Dim) (j : BitPos) : Word := (t[d.toNat]'(d.isLt))[j.val]

/-- An update of every engine of the block. -/
def mapEngines (f : Engine → Engine) (s : State) : State :=
  { s with lower := s.lower.map f, eng := f s.eng, upper := s.upper.map f }

/-- The end of a successful build: the table, `BUILT`, and `READY` in every engine (R111). -/
def buildSucceeds (s : State) : State :=
  mapEngines (fun e => { e with status := statusSetReady e.status })
    { s with bstate := .built, table := buildTable s.params.dirParams }

/-- The end of a failed build: `FAILED`, and `BUILD_FAIL` in every engine (R111, R261). -/
def buildFails (s : State) : State :=
  mapEngines (fun e => { e with status := statusSetFault .buildFail e.status }) { s with bstate := .failed }

/-- `Build()` (R111), the builder's one atomic step. -/
def build (s : State) : State :=
  if paramsValid s.params.dirParams then buildSucceeds s else buildFails s

end Sys2Proof.Machine
end

