-- ==== Sys2Proof/Machine/Float.lean ====
section
/-! DEFINITION. Binary64 arithmetic on bit patterns: spec/00_scope.md R12 and spec/43_extraction.md R202, R213.
Every finite value is a natural number of units of `2^-1074` with a sign, so sums and products are exact before
the one rounding. The functions on numbers of that size are irreducible, so that no elaborator unfolds them by
itself. -/

namespace Sys2Proof.Machine

open Sys2Proof

/-- The sign, bit 63 (R12). -/
def f64Neg (x : F64) : Bool := x.getLsbD 63

/-- The biased exponent, bits 62:52 (R12). -/
def f64Exp (x : F64) : Nat := (x.extractLsb' 52 11).toNat

/-- The fraction, bits 51:0 (R12). -/
def f64Frac (x : F64) : Nat := (x.extractLsb' 0 52).toNat

/-- A NaN of any payload (R213). -/
def f64IsNaN (x : F64) : Bool := f64Exp x == 2047 && f64Frac x != 0

/-- An infinity of either sign (R213). -/
def f64IsInf (x : F64) : Bool := f64Exp x == 2047 && f64Frac x == 0

/-- The magnitude of a finite value, in units of `2^-1074`; subnormals are kept (R213). -/
@[irreducible] def f64Mag (x : F64) : Nat :=
  if f64Exp x = 0 then f64Frac x else (2 ^ 52 + f64Frac x) <<< (f64Exp x - 1)

/-- A finite value as a signed number of units of `2^-1074`. -/
def f64Val (x : F64) : Int := if f64Neg x then -(f64Mag x : Int) else (f64Mag x : Int)

/-- The pattern with a sign and the 63 bits below it. -/
def f64Pack (neg : Bool) (bits : Nat) : F64 := BitVec.ofNat 64 ((if neg then 2 ^ 63 else 0) + bits)

/-- The canonical quiet NaN (R213). -/
def f64CanonNaN : F64 := 0x7FF8000000000000#64

/-- `n >> sh` rounded to nearest, ties to even. -/
def roundShift (n sh : Nat) : Nat :=
  let q := n >>> sh
  let r := n % 2 ^ sh
  let half := 2 ^ (sh - 1)
  if half < r ∨ (r = half ∧ q % 2 = 1) then q + 1 else q

/-- `rne` of R12 on the non-negative real `n / 2^2148`: the exponent and fraction bits of the nearest binary64
value, ties to even, infinity on overflow. A binade carries 53 significant bits, and the units below the smallest
normal one are `2^-1074` (a shift of 1074). A carry out of the fraction runs into the exponent field. -/
@[irreducible] def rneBits (n : Nat) : Nat :=
  let sh := max (n.log2 - 52) 1074
  min ((sh - 1074) * 2 ^ 52 + roundShift n sh) 0x7FF0000000000000

/-- `rne(n)` of a natural number (R12). -/
@[irreducible] def toF64 (n : Nat) : F64 := f64Pack false (rneBits (n * 2 ^ 2148))

/-- `rne(a / 2^63)` (R150). -/
@[irreducible] def rneFrac63 (a : Nat) : F64 := f64Pack false (rneBits (a * 2 ^ 2085))

/-- `fmul` (R12, R213): the product rounded once; a NaN operand or infinity times zero gives a NaN. -/
@[irreducible] def fmul (x y : F64) : F64 :=
  let neg := f64Neg x != f64Neg y
  if f64IsNaN x ∨ f64IsNaN y then f64CanonNaN
  else if f64IsInf x ∨ f64IsInf y then
    if f64Mag x = 0 ∨ f64Mag y = 0 then f64CanonNaN else f64Pack neg 0x7FF0000000000000
  else f64Pack neg (rneBits (f64Mag x * f64Mag y))

/-- `fadd` (R12, R213): the sum rounded once. An exact zero sum is negative only when both operands are
negative; infinities of different sign give a NaN. -/
@[irreducible] def fadd (x y : F64) : F64 :=
  if f64IsNaN x ∨ f64IsNaN y then f64CanonNaN
  else if f64IsInf x then (if f64IsInf y ∧ f64Neg x ≠ f64Neg y then f64CanonNaN else x)
  else if f64IsInf y then y
  else
    let z := f64Val x + f64Val y
    if z = 0 then f64Pack (f64Neg x && f64Neg y) 0
    else f64Pack (decide (z < 0)) (rneBits (z.natAbs * 2 ^ 1074))

/-- The sign of a value turned over. -/
def fneg (x : F64) : F64 := x ^^^ 0x8000000000000000#64

/-- `fsub` (R12, R213): `a - b` is `a + (-b)` with one rounding. -/
def fsub (x y : F64) : F64 := fadd x (fneg y)

/-- `floor(x)` of a non-negative finite value, as a natural number (R11, R202). -/
@[irreducible] def f64Floor (x : F64) : Nat := f64Mag x >>> 1074

/-- `x >= 1.0` for a non-negative value (R146). -/
@[irreducible] def f64GeOne (x : F64) : Bool := decide (2 ^ 1074 ≤ f64Mag x)

/-- 1.0. -/
def f64One : F64 := 0x3FF0000000000000#64

/-- `Canon` (R213): every NaN becomes the canonical quiet NaN. -/
def f64Canon (x : F64) : F64 := if f64IsNaN x then f64CanonNaN else x

end Sys2Proof.Machine
end

