-- ==== Sys2Proof/Machine/Ops.lean ====
section
/-! DEFINITION. The shared operations on an engine and on the block: cache access, taking a fault and leaving it
by reset, refusing, responding, and selecting the engine that is served. -/

namespace Sys2Proof.Machine

open Sys2Proof

/-- A command aborted by a fault (R13, R14): the code, and whether the command had flagged `WRAP` before it (R252). -/
structure Abort where
  code    : FaultCode
  wrapped : Bool
deriving DecidableEq, Repr

/-- `raise Fault(code)` (R13) by a command that has not flagged `WRAP`. -/
def raised (c : FaultCode) : Abort := { code := c, wrapped := false }

/-- `CACHE[d]` (R24, R61). -/
def cacheAt (e : Engine) (d : Dim) : CacheEntry := e.cache[d.toNat]'(d.isLt)

/-- `CACHE[d] <- c` (R24, R61). -/
def setCache (e : Engine) (d : Dim) (c : CacheEntry) : Engine :=
  { e with cache := e.cache.set d.toNat c d.isLt }

/-- TAKING A FAULT: `OnFault(c)` (R252), on the engine as it was before the command, so that every write of the
command is discarded but `WRAP`. -/
def onFault (e : Engine) (a : Abort) : Engine :=
  { e with
    status := statusSetFault a.code (if a.wrapped then statusSetWrap e.status else e.status)
    rsp := some { err := true, cause := faultNumber a.code, data := 0 } }

/-- LEAVING A FAULT: the only return from the halted state is reset (R263, R290), which gives every register its
reset value and abandons a held response (R292). The strap is sampled (R293); it and the host's record stay. -/
def resetEngine (nv : Config.NvSource) (e : Engine) : Engine := Engine.atReset e.strap nv e.observed

/-- Reset of the whole block (R290, R291). What the outside will do next stays. -/
def resetBlock (s : State) : State :=
  { s with
    bstate := .building
    table := tableUnbuilt
    lower := s.lower.map (resetEngine s.params.nvSource)
    eng := resetEngine s.params.nvSource s.eng
    upper := s.upper.map (resetEngine s.params.nvSource) }

/-- The engine is halted (R253). -/
def halted (e : Engine) : Bool := statusFaulted e.status

/-- A refusal with `HALTED`: only the response is written (R253). -/
def refuse (e : Engine) : Engine :=
  { e with rsp := some { err := true, cause := faultNumber .halted, data := 0 } }

/-- The response of a successful command (R13, R85). -/
def respond (e : Engine) (data : Word) : Engine :=
  { e with rsp := some { err := false, cause := 0, data := data } }

/-- The end of a command on engine `e`: its writes and result, or its fault (R14, R85, R252). -/
def complete (e : Engine) : Except Abort (Engine × Word) → Engine
  | .ok (e', data) => respond e' data
  | .error a => onFault e a

/-- The outcome of a command that a halted engine refuses (R253): every command but two. -/
def answer (s : State) (body : Except Abort (Engine × Word)) : Host.Outcome State Fault Refusal :=
  .next { s with eng := if halted s.eng then refuse s.eng else complete s.eng body }

/-- The outcome of a command that is executed even while the engine is halted (R253). -/
def answerAlways (s : State) (body : Except Abort (Engine × Word)) : Host.Outcome State Fault Refusal :=
  .next { s with eng := complete s.eng body }

/-- The engines of the block in number order (R273). -/
def engines (s : State) : List Engine := s.lower ++ s.eng :: s.upper

/-- The number of the engine that is served. -/
def engineNo (s : State) : Nat := s.lower.length

/-- The block with engine `k` as the one that is served, none when there is no engine `k` (R273). -/
def focus (k : Nat) (s : State) : Option State :=
  match (engines s).drop k with
  | [] => none
  | e :: up => some { s with lower := (engines s).take k, eng := e, upper := up }

end Sys2Proof.Machine
end

