-- ==== Sys2Proof/Machine/Accumulator.lean ====
section
/-! DEFINITION. The micro-operations of spec/41_accumulator.md: Gray code, the two refresh strategies, loading
through the normalizer, and the dimension and index advances. A fault inside one aborts the command. -/

namespace Sys2Proof.Machine

open Sys2Proof

/-- The binary-reflected Gray code (R11). -/
def gray (n : Nat) : Nat := n ^^^ (n >>> 1)

/-- `ctz` (R11) where it is a bit position of the table: the lowest one bit of `n` among bits 0 to 62. -/
def lowestOne (n : Nat) : Option BitPos := (List.finRange 63).find? fun j => n.testBit j.val

/-- `DirectAcc(d, n)` (R141). -/
def directAcc (t : Table) (d : Dim) (n : Nat) : Word :=
  (List.finRange 63).foldl (fun acc j => if (gray n).testBit j.val then acc ^^^ tblRead t d j else acc) 0

/-- One XOR of the incremental walk, at the table position `ctz(m)` (R143). For `0 < m < 2^63` there is such a
position; without one no pair can be formed and no entry is read. -/
def walkStep (t : Table) (d : Dim) (m : Nat) (v : Word) : Word :=
  match lowestOne m with
  | some j => v ^^^ tblRead t d j
  | none => v

/-- `k` forward steps from index `m` (R143). -/
def walkUp (t : Table) (d : Dim) : Nat → Nat → Word → Word
  | 0, _, v => v
  | k + 1, m, v => walkUp t d k (m + 1) (walkStep t d (m + 1) v)

/-- `k` backward steps from index `m` (R143). -/
def walkDown (t : Table) (d : Dim) : Nat → Nat → Word → Word
  | 0, _, v => v
  | k + 1, m, v => walkDown t d k (m - 1) (walkStep t d m v)

/-- `IncrementalWalk(d, n)` from the cache entry `c` (R143): one of the two walks has no step. -/
def incrementalWalk (t : Table) (d : Dim) (c : CacheEntry) (n : Nat) : Word :=
  walkDown t d (c.idx.toNat - n) c.idx.toNat (walkUp t d (n - c.idx.toNat) c.idx.toNat c.val)

/-- The accumulator range check and the cache write that end a refresh (R142, R144, R152). -/
def storeAcc (e : Engine) (d : Dim) (v n : Word) : Except Abort Engine :=
  if Config.idxLimit ≤ v.toNat then .error (raised .range) else .ok (setCache e d { val := v, idx := n })

/-- `Refresh(d, n)` (R142), by the strategy `CONFIG.MODE` names (R30, R293). -/
def refresh (t : Table) (e : Engine) (d : Dim) (n : Word) : Except Abort Engine :=
  if (cacheAt e d).idx = n then .ok e
  else if configIncremental e.config then storeAcc e d (incrementalWalk t d (cacheAt e d) n.toNat) n
  else storeAcc e d (directAcc t d n.toNat) n

/-- `Recompute(d, n)` (R144). -/
def recompute (t : Table) (e : Engine) (d : Dim) (n : Word) : Except Abort Engine :=
  storeAcc e d (directAcc t d n.toNat) n

/-- `Norm(a)` (R150). -/
def normalizer (a : Word) : F64 := rneFrac63 a.toNat

/-- `Load(d)` (R146). -/
def load (e : Engine) (d : Dim) : Except Abort Engine :=
  let x := normalizer (cacheAt e d).val
  if f64GeOne x then .error (raised .range) else .ok { e with fr := x, prod := 1 }

/-- A refresh and then a load of the same dimension (R146: `Load` follows every `Refresh`). -/
def refreshLoad (t : Table) (e : Engine) (d : Dim) (n : Word) : Except Abort Engine :=
  match refresh t e d n with
  | .error a => .error a
  | .ok e' => load e' d

/-- A recompute and then a load of the same dimension (R146). -/
def recomputeLoad (t : Table) (e : Engine) (d : Dim) (n : Word) : Except Abort Engine :=
  match recompute t e d n with
  | .error a => .error a
  | .ok e' => load e' d

/-- `AdvanceIndex()` (R149, R254): no index of `2^63` or more is ever written. -/
def advanceIndex (t : Table) (e : Engine) : Except Abort Engine :=
  if Config.idxLimit ≤ e.idx.toNat + 1 then .error (raised .idxRange)
  else refreshLoad t { e with idx := e.idx + 1, dim := 0 } 0 (e.idx + 1)

/-- `Wrap()` (R148). A fault after it keeps `WRAP` (R252). -/
def wrap (t : Table) (e : Engine) : Except Abort Engine :=
  match advanceIndex t { e with status := statusSetWrap e.status } with
  | .error a => .error { a with wrapped := true }
  | .ok e' => .ok e'

/-- `AdvanceDim()` (R147). -/
def advanceDim (t : Table) (e : Engine) : Except Abort Engine :=
  if e.dim.toNat < 31 then refreshLoad t { e with dim := e.dim + 1 } (e.dim + 1) e.idx
  else wrap t e

end Sys2Proof.Machine
end

