-- ==== Sys2Proof/Machine/Operands.lean ====
section
/-! DEFINITION. The operand forms of spec/30_encoding.md R83 and R84. No operand is sign-extended, scaled or
shifted. -/

namespace Sys2Proof.Machine

open Sys2Proof

/-- A 64-bit unsigned operand as a natural number (R84). -/
def unsigned64 (w : Word) : Nat := w.toNat

/-- A 32-bit unsigned operand: the low half of its word (R84). -/
def unsigned32 (w : Word) : Nat := (lowerHalf w).toNat

/-- A binary64 operand: any bit pattern (R84). -/
def binary64 (w : Word) : F64 := w

/-- A dimension operand, compared whole against 32 (R83, R255). -/
def dimOperand (w : Word) : Option Dim :=
  if unsigned64 w < 32 then some (BitVec.ofNat 5 (unsigned64 w)) else none

/-- A bit position operand, compared whole against 63 (R83, R255). -/
def posOperand (w : Word) : Option BitPos :=
  if h : unsigned64 w < 63 then some ⟨unsigned64 w, h⟩ else none

end Sys2Proof.Machine
end

