-- ==== Sys2Proof/Machine/Extract.lean ====
section
/-! DEFINITION. The extraction commands of spec/43_extraction.md. -/

namespace Sys2Proof.Machine

open Sys2Proof

/-- `ValueOut()` (R200, R201); the source is `CONFIG.NVSRC` (R30). -/
def valueOut (e : Engine) : F64 :=
  if configRemainder e.config then e.fr else normalizer (cacheAt e e.dim).val

/-- Move to the next dimension and answer `data`. -/
def advanceAndAnswer (t : Table) (e : Engine) (data : Word) : Except Abort (Engine × Word) :=
  match advanceDim t e with
  | .error f => .error f
  | .ok e' => .ok (e', data)

/-- `x` of R202 and R208: the remainder times the range, rounded. -/
def drawProduct (fr : F64) (r : Nat) : F64 := fmul fr (toF64 r)

/-- One bounded draw from `[min, max)` (R202, R208, R209). -/
def boundedDraw (t : Table) (e : Engine) (min max : Nat) : Except Abort (Engine × Word) :=
  if max ≤ min then .error (raised .bounds)
  else
    let r := max - min
    let x := drawProduct e.fr r
    let v := f64Floor x
    if r ≤ v then .error (raised .range)
    else if Config.precBudget < e.prod.toNat * r then advanceAndAnswer t e (BitVec.ofNat 64 (min + v))
    else
      .ok ({ e with fr := fsub x (toF64 v), prod := BitVec.ofNat 64 (e.prod.toNat * r) },
        BitVec.ofNat 64 (min + v))

/-- `min*(1-t) + max*t` in the order and roundings of R211, R212, with `Canon` (R213). -/
def interpolate (lo hi t : F64) : F64 :=
  f64Canon (fadd (fmul lo (fsub f64One t)) (fmul hi t))

/-- `NEXTVAL` (R206). -/
def execNextval (s : State) : Host.Outcome State Fault Refusal :=
  answer s (advanceAndAnswer s.table s.eng (valueOut s.eng))

/-- `NEXTUINT` (R208). -/
def execNextuint (a b : Word) (s : State) : Host.Outcome State Fault Refusal :=
  answer s (boundedDraw s.table s.eng (unsigned32 a) (unsigned32 b))

/-- `NEXTDBL` (R211). -/
def execNextdbl (a b : Word) (s : State) : Host.Outcome State Fault Refusal :=
  answer s (advanceAndAnswer s.table s.eng (interpolate (binary64 a) (binary64 b) (valueOut s.eng)))

end Sys2Proof.Machine
end

