-- ==== Sys2Proof/Machine/Registers.lean ====
section
/-! DEFINITION. The register read commands of spec/44_debug.md. None writes any state but the response. -/

namespace Sys2Proof.Machine

open Sys2Proof

/-- The read of a field of the cache entry a dimension operand names (R237, R238, R255). -/
def readCache (e : Engine) (a : Word) (field : CacheEntry → Word) : Except Abort (Engine × Word) :=
  match dimOperand a with
  | none => .error (raised .dimRange)
  | some d => .ok (e, field (cacheAt e d))

/-- `RDREG.IDX` (R230). -/
def execRdregIdx (s : State) : Host.Outcome State Fault Refusal :=
  answer s (.ok (s.eng, s.eng.idx))

/-- `RDREG.DIM` (R231). -/
def execRdregDim (s : State) : Host.Outcome State Fault Refusal :=
  answer s (.ok (s.eng, s.eng.dim.zeroExtend 64))

/-- `RDREG.ACC` (R232). -/
def execRdregAcc (s : State) : Host.Outcome State Fault Refusal :=
  answer s (.ok (s.eng, (cacheAt s.eng s.eng.dim).val))

/-- `RDREG.FR` (R233). -/
def execRdregFr (s : State) : Host.Outcome State Fault Refusal :=
  answer s (.ok (s.eng, s.eng.fr))

/-- `RDREG.PROD` (R234). -/
def execRdregProd (s : State) : Host.Outcome State Fault Refusal :=
  answer s (.ok (s.eng, s.eng.prod))

/-- `RDREG.STATUS` (R235), executed while halted too (R253). -/
def execRdregStatus (s : State) : Host.Outcome State Fault Refusal :=
  answerAlways s (.ok (s.eng, s.eng.status))

/-- `RDREG.CONFIG` (R236), executed while halted too (R253). -/
def execRdregConfig (s : State) : Host.Outcome State Fault Refusal :=
  answerAlways s (.ok (s.eng, s.eng.config))

/-- `RDREG.CVAL` (R237). -/
def execRdregCval (a : Word) (s : State) : Host.Outcome State Fault Refusal :=
  answer s (readCache s.eng a CacheEntry.val)

/-- `RDREG.CIDX` (R238). -/
def execRdregCidx (a : Word) (s : State) : Host.Outcome State Fault Refusal :=
  answer s (readCache s.eng a CacheEntry.idx)

end Sys2Proof.Machine
end

