-- ==== Sys2Proof/Machine/Sequence.lean ====
section
/-! DEFINITION. The sequence-control commands of spec/42_sequence_control.md and the table read of
spec/40_table_builder.md R117. -/

namespace Sys2Proof.Machine

open Sys2Proof

/-- Set the index to `n`, select dimension 0, recompute and load it; `IDX_RANGE` from `2^63` on (R170, R176, R254). -/
def seek (t : Table) (e : Engine) (n : Nat) : Except Abort (Engine × Word) :=
  if Config.idxLimit ≤ n then .error (raised .idxRange)
  else
    match recomputeLoad t { e with idx := BitVec.ofNat 64 n, dim := 0 } 0 (BitVec.ofNat 64 n) with
    | .error a => .error a
    | .ok e' => .ok (e', 0)

/-- The index `SEEDDIMS` computes, exactly (R176, R177). -/
def seedIndex (p : Config.Params) (dims : Nat) : Nat := p.seedBase + dims * p.seedStride

/-- `GETDIMCNT` (R178). -/
def execGetdimcnt (s : State) : Host.Outcome State Fault Refusal :=
  answer s (.ok (s.eng, BitVec.ofNat 64 Config.dimCount))

/-- `SETIDX` (R170, R171). -/
def execSetidx (a : Word) (s : State) : Host.Outcome State Fault Refusal :=
  answer s (seek s.table s.eng (unsigned64 a))

/-- `ADVIDX` (R172, R173). -/
def execAdvidx (s : State) : Host.Outcome State Fault Refusal :=
  answer s (match advanceIndex s.table s.eng with
    | .error f => .error f
    | .ok e => .ok (e, 0))

/-- `SETDIM` (R174, R175). -/
def execSetdim (a : Word) (s : State) : Host.Outcome State Fault Refusal :=
  answer s (match dimOperand a with
    | none => .error (raised .dimRange)
    | some d =>
      match refreshLoad s.table { s.eng with dim := d } d s.eng.idx with
      | .error f => .error f
      | .ok e => .ok (e, 0))

/-- `SEEDDIMS` (R176, R177). -/
def execSeeddims (a : Word) (s : State) : Host.Outcome State Fault Refusal :=
  answer s (seek s.table s.eng (seedIndex s.params (unsigned32 a)))

/-- `TBLRD` (R117): the two operands are checked before the read. -/
def execTblrd (a b : Word) (s : State) : Host.Outcome State Fault Refusal :=
  answer s (match dimOperand a, posOperand b with
    | some d, some j => .ok (s.eng, tblRead s.table d j)
    | none, _ => .error (raised .dimRange)
    | some _, none => .error (raised .dimRange))

end Sys2Proof.Machine
end

