-- ==== Sys2Proof/Machine/Dispatch.lean ====
section
/-! DEFINITION. One arm per command: which meaning it has. -/

namespace Sys2Proof.Machine

open Sys2Proof

/-- The execution of one decoded command on the engine that is served (R89, R86, R87). -/
def exec (i : Instr) (s : State) : Host.Outcome State Fault Refusal :=
  match i with
  | .getdimcnt => Sys2Proof.Machine.execGetdimcnt s
  | .setidx a => Sys2Proof.Machine.execSetidx a s
  | .advidx => Sys2Proof.Machine.execAdvidx s
  | .setdim a => Sys2Proof.Machine.execSetdim a s
  | .nextval => Sys2Proof.Machine.execNextval s
  | .nextuint a b => Sys2Proof.Machine.execNextuint a b s
  | .nextdbl a b => Sys2Proof.Machine.execNextdbl a b s
  | .seeddims a => Sys2Proof.Machine.execSeeddims a s
  | .tblrd a b => Sys2Proof.Machine.execTblrd a b s
  | .rdregIdx => Sys2Proof.Machine.execRdregIdx s
  | .rdregDim => Sys2Proof.Machine.execRdregDim s
  | .rdregAcc => Sys2Proof.Machine.execRdregAcc s
  | .rdregFr => Sys2Proof.Machine.execRdregFr s
  | .rdregProd => Sys2Proof.Machine.execRdregProd s
  | .rdregStatus => Sys2Proof.Machine.execRdregStatus s
  | .rdregConfig => Sys2Proof.Machine.execRdregConfig s
  | .rdregCval a => Sys2Proof.Machine.execRdregCval a s
  | .rdregCidx a => Sys2Proof.Machine.execRdregCidx a s

end Sys2Proof.Machine
end

