-- ==== Sys2Proof/Machine/Ports.lean ====
section
/-! DEFINITION. The ports of spec/30_encoding.md R80 at the level of whole transfers: accepting a command,
handing over a response, the straps and reset (spec/70_reset_and_hazards.md R290 to R296). -/

namespace Sys2Proof.Machine

open Sys2Proof

/-- `cmd_ready` (R80, R290, R296): no build is running and no response is held. -/
def cmdReady (s : State) (e : Engine) : Bool := decide (s.bstate ≠ .building) && e.rsp.isNone

/-- `rsp_valid` (R80): a response is held. -/
def rspValid (e : Engine) : Bool := e.rsp.isSome

/-- `fault_o` (R80, R259). -/
def faultLine (e : Engine) : Bool := statusFaulted e.status

/-- An accepted command on the engine that is served: decoded and executed, or `ILLEGAL`; a halted engine
refuses what does not decode too (R89, R251, R253, R260). -/
def serve (c : Command) (s : State) : Host.Outcome State Fault Refusal :=
  match decode c with
  | .ok i => exec i s
  | .error _ => answer s (.error (raised .illegal))

/-- The action of the outside can happen now: a command needs a ready engine and the taking of a response a held one;
straps and reset need nothing. An action on an engine that does not exist is the step's to refuse. -/
def actionReady (s : State) : HostEvent → Bool
  | .command k _ =>
    match (engines s)[k]? with
    | some e => cmdReady s e
    | none => true
  | .take k =>
    match (engines s)[k]? with
    | some e => rspValid e
    | none => true
  | .strap _ _ => true
  | .reset => true

/-- The first action that can happen, and the others in their order. An action that cannot happen yet waits, and what
is presented on other ports does not wait for it (R273, R290, R296). -/
def pick (s : State) : List HostEvent → Option (HostEvent × List HostEvent)
  | [] => none
  | a :: rest =>
    if actionReady s a then some (a, rest)
    else
      match pick s rest with
      | none => none
      | some (b, others) => some (b, a :: others)

/-- Engine `k` accepts `c`. -/
def transferCommand (k : Nat) (c : Command) (s : State) : Host.Outcome State Fault Refusal :=
  match focus k s with
  | none => .fault (.noSuchEngine k)
  | some s' => serve c s'

/-- The host takes the response of engine `k` (R80, R296). -/
def transferResponse (k : Nat) (s : State) : Host.Outcome State Fault Refusal :=
  match focus k s with
  | none => .fault (.noSuchEngine k)
  | some s' =>
    .next { s' with eng := { s'.eng with rsp := none, observed := s'.eng.observed ++ s'.eng.rsp.toList } }

/-- The outside drives the `mode_incr` pin of engine `k` (R80). It is sampled at reset only (R293). -/
def driveStrap (k : Nat) (level : Bool) (s : State) : Host.Outcome State Fault Refusal :=
  match focus k s with
  | none => .fault (.noSuchEngine k)
  | some s' => .next { s' with eng := { s'.eng with strap := level } }

/-- One action of the outside. -/
def perform (s : State) : HostEvent → Host.Outcome State Fault Refusal
  | .command k c => transferCommand k c s
  | .take k => transferResponse k s
  | .strap k level => driveStrap k level s
  | .reset => .next (resetBlock s)

/-- The next action of the outside. With none that can happen the block is idle and holds all its state (R269). -/
def hostTransfer (s : State) : Host.Outcome State Fault Refusal :=
  match pick s s.host with
  | none => .next s
  | some (a, rest) => perform { s with host := rest } a

/-- The state in which the next step accepts the command of `nbits` bits `w` on the engine that is served: the
build is over, no response is held, and the command is the host's next action (notes/assumptions/3.md). -/
def presentWord (s : State) (nbits w : Nat) : State :=
  let r := match s.bstate with
    | .building => buildSucceeds s
    | .built => s
    | .failed => s
  { r with eng := { r.eng with rsp := none }, host := .command (engineNo r) (commandOfBits nbits w) :: r.host }

end Sys2Proof.Machine
end

