-- ==== Sys2Proof/Machine/Step.lean ====
section
/-! DEFINITION. One step of the block (spec/70_reset_and_hazards.md R297): the builder while the build runs, then
one transfer with the host. -/

namespace Sys2Proof.Machine

open Sys2Proof

/-- The builder's step is enabled, and no engine's is, exactly while `BSTATE = BUILDING` (R290, R297). -/
def step (s : State) : Host.Outcome State Fault Refusal :=
  match s.bstate with
  | .building => .next (build s)
  | .built => hostTransfer s
  | .failed => hostTransfer s

/-- `s` with the command of bits `w` as the very next one (see `presentWord`). -/
def State.withFetchWord (s : State) (nbits w : Nat) : State := presentWord s nbits w

end Sys2Proof.Machine
end

