-- ==== Sys2Proof/Machine/Assembler.lean ====
section
/-! DEFINITION. The assembler of spec/30_encoding.md R90 and R91, over a line as a list of characters. What R90 leaves
open of the text (spaces, letter case, the parts of a decimal number) is notes/assumptions/13.md. -/

namespace Sys2Proof.Machine

open Sys2Proof

/-- The value of a digit, in lower or upper case. -/
def digitValue (c : Char) : Option Nat :=
  let n := c.toNat
  if 48 ≤ n ∧ n ≤ 57 then some (n - 48)
  else if 97 ≤ n ∧ n ≤ 102 then some (n - 87)
  else if 65 ≤ n ∧ n ≤ 70 then some (n - 55)
  else none

/-- A number written with at least one digit of a base. -/
def readDigits (base : Nat) (l : List Char) : Option Nat :=
  if l.isEmpty then none
  else l.foldl (fun acc c =>
    match acc, digitValue c with
    | some n, some d => if d < base then some (n * base + d) else none
    | none, _ => none
    | some _, none => none) (some 0)

/-- A decimal or `0x` hexadecimal natural number (R90). -/
def readNat : List Char → Option Nat
  | '0' :: 'x' :: l => readDigits 16 l
  | l => readDigits 10 l

/-- An integer operand: a natural number that fits the operand word. -/
def readWord (l : List Char) : Option Word :=
  match readNat l with
  | some n => if n < 2 ^ 64 then some (BitVec.ofNat 64 n) else none
  | none => none

/-- `rne` (R12) of the fraction `num / den`: in units of `2^-2148`, with the lowest bit set when units are cut off, which
keeps every comparison with a tie. -/
def rneFraction (num den : Nat) : Nat :=
  let n := num * 2 ^ 2148 / den
  rneBits (if num * 2 ^ 2148 % den = 0 then n else n ||| 1)

/-- The characters before and after the first `c`, none after it when there is no `c`. -/
def cutAt (c : Char) (l : List Char) : List Char × Option (List Char) :=
  match l.dropWhile (· != c) with
  | [] => (l, none)
  | _ :: after => (l.takeWhile (· != c), some after)

/-- A decimal exponent with an optional sign, which R90 leaves open (DESIGN CHOICE, notes/assumptions/13.md): whether it
is negative, and its value. -/
def readExponent : List Char → Option (Bool × Nat)
  | '-' :: l => (readDigits 10 l).map fun n => (true, n)
  | '+' :: l => (readDigits 10 l).map fun n => (false, n)
  | l => (readDigits 10 l).map fun n => (false, n)

/-- The magnitude of a decimal number that contains `.` or `e`, converted with `rne` (R90). -/
def readDecimal (l : List Char) : Option Nat :=
  let (mantissa, expText) := cutAt 'e' l
  let (whole, fracText) := cutAt '.' mantissa
  let frac := fracText.getD []
  if expText.isNone ∧ fracText.isNone then none
  else
    match readDigits 10 (whole ++ frac), readExponent (expText.getD ['0']) with
    | some n, some (true, e) => some (rneFraction n (10 ^ (frac.length + e)))
    | some n, some (false, e) => some (rneFraction (n * 10 ^ e) (10 ^ frac.length))
    | none, _ => none
    | some _, none => none

/-- A binary64 operand of `nextdbl` (R90). A decimal number may have either sign, as in the commands of R92 and V-X6
(spec/95_test_vectors.md section 3.5); R90 lists none (notes/assumptions/13.md). -/
def readDouble (l : List Char) : Option F64 :=
  match l with
  | ['i', 'n', 'f'] => some 0x7FF0000000000000#64
  | ['-', 'i', 'n', 'f'] => some 0xFFF0000000000000#64
  | ['n', 'a', 'n'] => some f64CanonNaN
  | 'b' :: 'i' :: 't' :: 's' :: '(' :: '0' :: 'x' :: m =>
    match m.reverse with
    | ')' :: digits => readWord ('0' :: 'x' :: digits.reverse)
    | _ => none
  | '-' :: m => (readDecimal m).map (f64Pack true)
  | '+' :: m => (readDecimal m).map (f64Pack false)
  | m => (readDecimal m).map (f64Pack false)

/-- The characters that separate words. -/
def isBlank (c : Char) : Bool := c == ' ' || c == '\t' || c == '\r' || c == '\n'

/-- A text without blanks at its ends. -/
def trimBlanks (l : List Char) : List Char := ((l.dropWhile isBlank).reverse.dropWhile isBlank).reverse

/-- The parts of a text between commas. -/
def splitCommas : List Char → List (List Char)
  | [] => [[]]
  | c :: l =>
    if c = ',' then [] :: splitCommas l
    else
      match splitCommas l with
      | [] => [[c]]
      | w :: ws => (c :: w) :: ws

/-- The operands of a line, without the blanks around them. -/
def operandTexts (l : List Char) : List (List Char) :=
  if (trimBlanks l).isEmpty then [] else (splitCommas l).map trimBlanks

/-- The commands of one mnemonic, or pseudo-instruction, with its operands (R90, R91); none where there is no such
form. -/
def assembleWords (mnemonic : String) (operands : List (List Char)) : Option (List Instr) :=
  match mnemonic, operands with
  | "getdimcnt", [] => some [.getdimcnt]
  | "setidx", [i] => (readWord i).map fun a => [.setidx a]
  | "advidx", [] => some [.advidx]
  | "setdim", [d] => (readWord d).map fun a => [.setdim a]
  | "nextval", [] => some [.nextval]
  | "nextuint", [lo, hi] =>
    match readWord lo, readWord hi with
    | some a, some b => some [.nextuint a b]
    | _, _ => none
  | "nextdbl", [lo, hi] =>
    match readDouble lo, readDouble hi with
    | some a, some b => some [.nextdbl a b]
    | _, _ => none
  | "seeddims", [n] => (readWord n).map fun a => [.seeddims a]
  | "tblrd", [d, j] =>
    match readWord d, readWord j with
    | some a, some b => some [.tblrd a b]
    | _, _ => none
  | "rdreg", [r] =>
    match String.ofList r with
    | "idx" => some [.rdregIdx]
    | "dim" => some [.rdregDim]
    | "acc" => some [.rdregAcc]
    | "fr" => some [.rdregFr]
    | "prod" => some [.rdregProd]
    | "status" => some [.rdregStatus]
    | "config" => some [.rdregConfig]
    | _ => none
  | "rdreg", [r, d] =>
    match String.ofList r with
    | "cval" => (readWord d).map fun a => [.rdregCval a]
    | "cidx" => (readWord d).map fun a => [.rdregCidx a]
    | _ => none
  | "reseed", [i] => (readWord i).map fun a => expandPseudo (.reseed a)
  | "nextpoint", [] => some (expandPseudo .nextpoint)
  | "draw3", [] => some (expandPseudo .draw3)
  | "nextbit", [] => some (expandPseudo .nextbit)
  | "rdstatus", [] => some (expandPseudo .rdstatus)
  | "rdacc", [] => some (expandPseudo .rdacc)
  | _, _ => none

/-- The commands of one line (R90, R91): `;` starts a comment, an empty line has no command. -/
def assembleLine (line : List Char) : Option (List Command) :=
  let text := trimBlanks (cutAt ';' line).1
  if text.isEmpty then some []
  else
    (assembleWords (String.ofList (text.takeWhile fun c => !isBlank c))
      (operandTexts (text.dropWhile fun c => !isBlank c))).map fun is => is.map encode

end Sys2Proof.Machine
end

