-- ==== Sys2Proof/Safety.lean ====
section
/-! DEFINITION. The terms claims are stated in: the invariants of spec/10_state.md R25 to R32, what a selection of a
dimension leaves behind, and what a fault entry leaves behind (spec/60_exceptions.md R252). -/

namespace Sys2Proof.Machine

open Sys2Proof

/-- The first accumulator whose normalized value is 1.0 (R151). -/
def sampleLimit : Nat := 0x7FFFFFFFFFFFFE00

/-- Cache entry `c` of dimension `d` satisfies R25. -/
def CacheAgrees (t : Table) (d : Dim) (c : CacheEntry) : Prop :=
  c.idx.toNat < 2 ^ 63 ∧ c.val = directAcc t d c.idx.toNat

/-- R22, R25, R26 and R200 of one engine. -/
def SequenceSound (t : Table) (e : Engine) : Prop :=
  e.idx.toNat < 2 ^ 63 ∧ (∀ d, CacheAgrees t d (cacheAt e d)) ∧ (cacheAt e e.dim).idx = e.idx ∧
    (normalizer (cacheAt e e.dim).val).toNat < f64One.toNat

/-- R27: the pattern of a binary64 value in `[0, 1)`, no NaN, no infinity, not negative, not `-0.0`. -/
def FrLegal (x : F64) : Prop := x.toNat < f64One.toNat

/-- R28, R204. -/
def ProdLegal (p : Word) : Prop := 1 ≤ p.toNat ∧ p.toNat ≤ 2048

/-- R29: reserved bits read as 0, and `FAULTED = 1` if and only if `CAUSE != 0`. -/
def StatusSound (w : Word) : Prop :=
  statusReserved w = 0 ∧ (statusFaulted w = true ↔ statusCause w ≠ 0)

/-- R30: `CONFIG` is hardwired from the configuration. -/
def ConfigSound (p : Config.Params) (e : Engine) : Prop :=
  ∃ m, e.config = configWord m p.nvSource

/-- The builder and the engines agree (R29, R32, R111, R116, R261). -/
def BuilderSound (s : State) : Prop :=
  (s.bstate = .building → ∀ e ∈ engines s, e.status = 0 ∧ ∀ d, cacheAt e d = { val := 0, idx := 0 }) ∧
  (s.bstate = .built →
    paramsValid s.params.dirParams = true ∧ s.table = buildTable s.params.dirParams) ∧
  (s.bstate = .failed → ∀ e ∈ engines s, statusFaulted e.status = true ∧ statusCause e.status = 6) ∧
  (∀ e ∈ engines s, (statusReady e.status = true ↔ s.bstate = .built))

/-- The invariant of the block: builder, status, configuration and sequence registers. -/
def BlockSound (s : State) : Prop :=
  BuilderSound s ∧
    ∀ e ∈ engines s, StatusSound e.status ∧ ConfigSound s.params e ∧ SequenceSound s.table e

/-- The invariant of the extraction registers (R27, R28). -/
def ExtractionSound (s : State) : Prop := ∀ e ∈ engines s, FrLegal e.fr ∧ ProdLegal e.prod

/-- Every table entry is below `2^63` (R31). -/
def TableBelow (t : Table) : Prop := ∀ d j, (tblRead t d j).toNat < 2 ^ 63

/-- Dimension `d` can be brought to index `n` and loaded without a fault: the index is legal, the cached entry
satisfies R25, and the sample does not normalize to 1.0 (R146, R151). -/
def Selectable (t : Table) (e : Engine) (d : Dim) (n : Word) : Prop :=
  n.toNat < 2 ^ 63 ∧ CacheAgrees t d (cacheAt e d) ∧ (directAcc t d n.toNat).toNat < sampleLimit

/-- An engine after the selection of dimension `d` at index `n`: the cache entry of R145, and `FR` and `PROD`
loaded (R146); every other register as in `e`. -/
def selected (t : Table) (e : Engine) (d : Dim) (n : Word) : Engine :=
  { setCache e d { val := directAcc t d n.toNat, idx := n } with
    idx := n, dim := d, fr := normalizer (directAcc t d n.toNat), prod := 1 }

/-- The value R201 returns, by `CONFIG.NVSRC`. -/
def currentValue (e : Engine) : F64 :=
  if e.config.getLsbD 1 then e.fr else normalizer (cacheAt e e.dim).val

/-- The response of a success with a result (R85). -/
def okResponse (data : Word) : Option Response := some { err := false, cause := 0, data := data }

/-- The response of a fault or a refusal (R85). -/
def errResponse (cause : BitVec 4) : Option Response := some { err := true, cause := cause, data := 0 }

/-- `e'` is `e` after fault entry with a code (R252): every register is kept, `FAULTED` and `CAUSE` are set, `READY`
and the reserved bits are kept, `WRAP` is kept or, if the command flagged it, set. -/
def FaultEntry (e e' : Engine) (cause : BitVec 4) (wrapped : Bool) : Prop :=
  e' = { e with status := e'.status, rsp := errResponse cause } ∧
  statusFaulted e'.status = true ∧ statusCause e'.status = cause ∧
  statusWrap e'.status = (statusWrap e.status || wrapped) ∧
  statusReady e'.status = statusReady e.status ∧
  statusReserved e'.status = statusReserved e.status

/-- A command ends in fault entry on the engine that is served, and nothing else of the block changes. -/
def Faults (s : State) (o : Host.Outcome State Fault Refusal) (cause : BitVec 4) (wrapped : Bool) : Prop :=
  ∃ e', o = .next { s with eng := e' } ∧ FaultEntry s.eng e' cause wrapped

/-- The commands that are `ILLEGAL`, by R88, from the command word read as a natural number: `OPC` is `cw % 256`, `SEL`
is `cw / 256 % 16`, `RSV` is `cw / 4096`. -/
def IllegalCommand (c : Command) : Prop :=
  c.cw.toNat % 256 = 0 ∨ 0x0B ≤ c.cw.toNat % 256 ∨ c.cw.toNat / 4096 ≠ 0 ∨
  (c.cw.toNat % 256 ≠ 0x0A ∧ c.cw.toNat / 256 % 16 ≠ 0) ∨
  (c.cw.toNat % 256 = 0x0A ∧ 9 ≤ c.cw.toNat / 256 % 16) ∨
  (c.cw.toNat % 256 = 0x06 ∧ (2 ^ 32 ≤ c.a.toNat ∨ 2 ^ 32 ≤ c.b.toNat)) ∨
  (c.cw.toNat % 256 = 0x08 ∧ 2 ^ 32 ≤ c.a.toNat)

/-- `x` of R208: the remainder times the range. -/
def drawnValue (e : Engine) (r : Nat) : F64 := fmul e.fr (toF64 r)

/-- `v` of R208: the integer part of `drawnValue`. -/
def drawnOffset (e : Engine) (r : Nat) : Nat := f64Floor (drawnValue e r)

/-- A command is refused with `HALTED`: only the response changes (R253). -/
def refusedHalted (s : State) : State := { s with eng := { s.eng with rsp := errResponse 7 } }

end Sys2Proof.Machine
end

