-- ==== Sys2Proof/Certificates/Slice0/Obligations.lean ====
section
/-! DEFINITION. The statements for the provers, from the numbered rules of spec/. -/

open Sys2Proof Sys2Proof.Machine

/-! ## Encoding (spec/30_encoding.md) -/

/-- R82, R86, R87, R89, R90: no bit of a well-formed command is lost between the encoder and the decoder. -/
def Obligations.EncodedCommandsDecodeBack : Prop :=
  ∀ i : Instr, i.wellFormed = true → decode (encode i) = .ok i

/-- R82, R83, R86, R87, R89: what decodes is well formed, and its command word is the one word of that command. -/
def Obligations.DecodedCommandsHaveOneWord : Prop :=
  ∀ (c : Command) (i : Instr), decode c = .ok i → i.wellFormed = true ∧ encodeWord i = c.cw

/-- R88: the commands listed there fault with code 1, and every other command decodes. -/
def Obligations.IllegalEncodingsFault : Prop :=
  (∀ (s : State) (c : Command), statusFaulted s.eng.status = false → IllegalCommand c →
    Faults s (serve c s) 1 false) ∧
  (∀ c : Command, ¬ IllegalCommand c → ∃ i, decode c = .ok i)

/-- R92: the encoding examples, both ways, and the three illegal words. -/
def Obligations.ExampleEncodings : Prop :=
  encode (.setidx 32768) = { cw := 0x00000002, a := 0x0000000000008000, b := 0 } ∧
  decode { cw := 0x00000002, a := 0x0000000000008000, b := 0 } = .ok (.setidx 32768) ∧
  encode (.nextuint 10 20) = { cw := 0x00000006, a := 0x000000000000000A, b := 0x0000000000000014 } ∧
  decode { cw := 0x00000006, a := 0x000000000000000A, b := 0x0000000000000014 } = .ok (.nextuint 10 20) ∧
  encode (.nextdbl 0xBFF0000000000000 0x3FF0000000000000) =
    { cw := 0x00000007, a := 0xBFF0000000000000, b := 0x3FF0000000000000 } ∧
  decode { cw := 0x00000007, a := 0xBFF0000000000000, b := 0x3FF0000000000000 } =
    .ok (.nextdbl 0xBFF0000000000000 0x3FF0000000000000) ∧
  encode (.rdregCval 3) = { cw := 0x0000070A, a := 3, b := 0 } ∧
  decode { cw := 0x0000070A, a := 3, b := 0 } = .ok (.rdregCval 3) ∧
  (∀ a b, decode { cw := 0x0000010B, a := a, b := b } = .error .reservedOpcode) ∧
  (∀ a b, decode { cw := 0x00000105, a := a, b := b } = .error .selectorNotZero) ∧
  (∀ a b, decode { cw := 0x00001002, a := a, b := b } = .error .reservedBits)

/-- R90, R91: binary64 operands in each form of R90 (decimal with `.` or `e`, `inf`, `-inf`, `nan`, `bits`), a comment,
and lines of the pseudo-instructions; `reseed` expands to `setidx` of any index. R90 lists no sign for a decimal number:
the leading signs are those of the commands of R92 (`-1.0`) and V-X6 of spec/95_test_vectors.md (`-0.0`, `+0.0`), and
that a decimal number has them, and that its exponent may have one (`25e-1`), is the model's choice:
notes/assumptions/13.md. -/
def Obligations.AssemblyExamples : Prop :=
  assembleLine "nextdbl -1.0, bits(0x3FF0000000000000) ; from -1 to 1".toList =
    some [{ cw := 7, a := 0xBFF0000000000000, b := 0x3FF0000000000000 }] ∧
  assembleLine "nextdbl -0.0, +0.0".toList = some [{ cw := 7, a := 0x8000000000000000, b := 0 }] ∧
  assembleLine "nextdbl 25e-1, inf".toList =
    some [{ cw := 7, a := 0x4004000000000000, b := 0x7FF0000000000000 }] ∧
  assembleLine "nextdbl -inf, nan".toList =
    some [{ cw := 7, a := 0xFFF0000000000000, b := 0x7FF8000000000000 }] ∧
  assembleLine "reseed 0x8000".toList = some [{ cw := 2, a := 32768, b := 0 }] ∧
  assembleLine "nextpoint".toList = some [{ cw := 3, a := 0, b := 0 }] ∧
  assembleLine "rdstatus".toList = some [{ cw := 0x50A, a := 0, b := 0 }] ∧
  assembleLine "rdacc".toList = some [{ cw := 0x20A, a := 0, b := 0 }] ∧
  assembleLine "draw3".toList = some (List.replicate 3 { cw := 5, a := 0, b := 0 }) ∧
  assembleLine "nextbit".toList = some [{ cw := 6, a := 0, b := 2 }] ∧
  ∀ i : Word, (expandPseudo (.reseed i)).map encode = [{ cw := 2, a := i, b := 0 }]

/-- R83: operand words that a command does not read have no effect on what it decodes to. -/
def Obligations.UnusedOperandsIgnored : Prop :=
  (∀ (cw : Half) (a b a' b' : Word),
    cw = 0x001 ∨ cw = 0x003 ∨ cw = 0x005 ∨ cw = 0x00A ∨ cw = 0x10A ∨ cw = 0x20A ∨ cw = 0x30A ∨ cw = 0x40A ∨
      cw = 0x50A ∨ cw = 0x60A →
    decode { cw := cw, a := a, b := b } = decode { cw := cw, a := a', b := b' }) ∧
  (∀ (cw : Half) (a b b' : Word),
    cw = 0x002 ∨ cw = 0x004 ∨ cw = 0x008 ∨ cw = 0x70A ∨ cw = 0x80A →
    decode { cw := cw, a := a, b := b } = decode { cw := cw, a := a, b := b' })

/-! ## The step and the ports (spec/30_encoding.md, spec/70_reset_and_hazards.md) -/

/-- R67, R80, R89, R297: once the build is over, a command presented to an engine that holds no response is decoded
and executed on that engine, and the host's action is done. The same for a command that `pick` answers from further down
the host's list, an order that is the model's choice: notes/assumptions/15.md. -/
def Obligations.StepRunsTheDecodedCommand : Prop :=
  ∀ (s s1 : State) (k : Nat) (c : Command) (rest : List HostEvent) (i : Instr),
    s.bstate ≠ .building → focus k s = some s1 → decode c = .ok i →
    (s.host = .command k c :: rest → s1.eng.rsp = none → step s = exec i { s1 with host := rest }) ∧
    (pick s s.host = some (.command k c, rest) → step s = exec i { s1 with host := rest })

/-- R290, R297: while the build runs the step is the build alone. A presented command waits, no engine takes or gives a
response, and no register but `STATUS` changes. That the host's whole list stays until the build is over, a reset or a
strap change included (`t.host = s.host`), is the model's choice: notes/assumptions/7.md. -/
def Obligations.CommandsWaitForTheBuild : Prop :=
  ∀ s : State, s.bstate = .building → ∃ t, step s = .next t ∧ t.bstate ≠ .building ∧ t.host = s.host ∧
    t.params = s.params ∧ (engines t).length = (engines s).length ∧
    ∀ (k : Nat) (e : Engine), (engines s)[k]? = some e → ∃ e', (engines t)[k]? = some e' ∧ e' = { e with status := e'.status }

/-- R296: an engine that holds a response accepts no command. With nothing else to do nothing changes. That a taking
later in the host's list is done first, while the command before it stays in the list, is the order of `pick`, the
model's choice: notes/assumptions/15.md. -/
def Obligations.HeldResponseBlocksCommands : Prop :=
  ∀ (s s1 : State) (k : Nat) (c : Command) (r : Response),
    s.bstate ≠ .building → focus k s = some s1 → s1.eng.rsp = some r →
    (s.host = [.command k c] → step s = .next s) ∧
    (∀ rest, s.host = .command k c :: .take k :: rest → step s = .next
      { s1 with host := .command k c :: rest
                eng := { s1.eng with rsp := none, observed := s1.eng.observed ++ [r] } })

/-- R80, R296, R299: taking a response empties the response port and records the response. The record `observed` is a
field of the model: notes/assumptions/2.md. -/
def Obligations.TakenResponseFreesThePort : Prop :=
  ∀ (s s1 : State) (k : Nat) (rest : List HostEvent) (r : Response),
    s.bstate ≠ .building → s.host = .take k :: rest → focus k s = some s1 → s1.eng.rsp = some r →
    step s = .next
      { s1 with host := rest, eng := { s1.eng with rsp := none, observed := s1.eng.observed ++ [r] } }

/-- R85, R300: every command word with any operands, presented in any state, gets one response, which has the form R85
gives it; nothing of the block but the engine that is served changes. -/
def Obligations.EveryCommandGetsOneResponse : Prop :=
  ∀ (c : Command) (s : State), ∃ e' r, serve c s = .next { s with eng := e' } ∧ e'.rsp = some r ∧
    ((r.err = false ∧ r.cause = 0) ∨ (r.err = true ∧ 1 ≤ r.cause.toNat ∧ r.cause.toNat ≤ 7 ∧ r.data = 0))

/-- R253: a halted engine executes the two status reads and refuses everything else, whatever it would decode to. -/
def Obligations.HaltedEngineRefuses : Prop :=
  ∀ (s : State) (c : Command), statusFaulted s.eng.status = true →
    (c.cw ≠ 0x0000050A → c.cw ≠ 0x0000060A → serve c s = .next (refusedHalted s)) ∧
    (c.cw = 0x0000050A → serve c s = .next { s with eng := { s.eng with rsp := okResponse s.eng.status } }) ∧
    (c.cw = 0x0000060A → serve c s = .next { s with eng := { s.eng with rsp := okResponse s.eng.config } })

/-! ## Reset and the builder (spec/10_state.md, spec/40_table_builder.md, spec/70_reset_and_hazards.md) -/

/-- R35: the reset value of every register of every engine, which satisfies R25 to R28 and is the state that `SETIDX 0`
would produce. (The table is unspecified until built, so the clauses hold for every table.) -/
def Obligations.ResetGivesEveryRegisterItsValue : Prop :=
  State.reset.bstate = .building ∧
  ∀ e ∈ engines State.reset, ∀ t : Table,
    e.idx = 0 ∧ e.dim = 0 ∧ (∀ d, cacheAt e d = { val := 0, idx := 0 }) ∧ e.fr = 0 ∧ e.prod = 1 ∧ e.status = 0 ∧
    e.rsp = none ∧ e.config = configWord e.strap State.reset.params.nvSource ∧
    SequenceSound t e ∧ FrLegal e.fr ∧ ProdLegal e.prod ∧ selected t e 0 0 = e

/-- R30: the fields of the word that `CONFIG` is hardwired to. -/
def Obligations.ConfigurationWordFields : Prop :=
  ∀ (m : Bool) (nv : Config.NvSource),
    (configWord m nv).getLsbD 0 = m ∧ (configWord m nv).getLsbD 1 = decide (nv = .remainder) ∧
    (configWord m nv).toNat / 4 % 2 ^ 6 = 0 ∧ (configWord m nv).toNat / 2 ^ 8 % 2 ^ 8 = 32 ∧
    (configWord m nv).toNat / 2 ^ 16 % 2 ^ 8 = 63 ∧ (configWord m nv).toNat / 2 ^ 24 % 2 ^ 12 = 2048 ∧
    (configWord m nv).toNat / 2 ^ 36 = 0 ∧ configWord true .accum = 0x00000008003F2001#64

/-- R290, R292, R293: a reset pulse gives every register of every engine its reset value, abandons a held response,
samples the strap, and starts the build again. -/
def Obligations.ResetPulseRestoresEveryEngine : Prop :=
  ∀ (s : State) (rest : List HostEvent), s.bstate ≠ .building → s.host = .reset :: rest →
    ∃ t, step s = .next t ∧ t.bstate = .building ∧ t.host = rest ∧ t.params = s.params ∧
      (engines t).length = (engines s).length ∧
      ∀ (k : Nat) (e : Engine), (engines s)[k]? = some e → ∃ e', (engines t)[k]? = some e' ∧
        e'.idx = 0 ∧ e'.dim = 0 ∧ (∀ d, cacheAt e' d = { val := 0, idx := 0 }) ∧ e'.fr = 0 ∧ e'.prod = 1 ∧
        e'.status = 0 ∧ e'.rsp = none ∧ e'.config = configWord e.strap s.params.nvSource ∧ e'.strap = e.strap

/-- R293: driving the `mode_incr` strap changes no register; `CONFIG` keeps the mode sampled at reset. -/
def Obligations.StrapIsSampledAtResetOnly : Prop :=
  ∀ (s s1 : State) (k : Nat) (level : Bool) (rest : List HostEvent),
    s.bstate ≠ .building → s.host = .strap k level :: rest → focus k s = some s1 →
    step s = .next { s1 with host := rest, eng := { s1.eng with strap := level } }

/-- R111, R261: the build ends `BUILT` with the table and `READY` in every engine, or, when `ParamsValid` is false,
`FAILED` with `FAULTED` and `CAUSE = 6` in every engine and `READY` as it was. That a failed build leaves the table as
it was (`t.table = s.table`) is the model's choice, R111 and R31 leaving it open: notes/assumptions/4.md. -/
def Obligations.BuildEndsBuiltOrFailed : Prop :=
  ∀ s : State, s.bstate = .building →
    (paramsValid s.params.dirParams = true → ∃ t, step s = .next t ∧ t.bstate = .built ∧
      t.table = buildTable s.params.dirParams ∧
      ∀ (k : Nat) (e : Engine), (engines s)[k]? = some e →
        (engines t)[k]? = some { e with status := e.status ||| 1#64 }) ∧
    (paramsValid s.params.dirParams = false → ∃ t, step s = .next t ∧ t.bstate = .failed ∧ t.table = s.table ∧
      ∀ (k : Nat) (e : Engine), (engines s)[k]? = some e → ∃ e', (engines t)[k]? = some e' ∧
        e' = { e with status := e'.status } ∧ statusFaulted e'.status = true ∧ statusCause e'.status = 6 ∧
        statusReady e'.status = statusReady e.status ∧ statusWrap e'.status = statusWrap e.status)

/-- R115: `ParamsValid` is exactly the four checks. Entry `i` is dimension `i + 1`. -/
def Obligations.ParameterValidationChecks : Prop :=
  ∀ ps : Config.DirParams, paramsValid ps = true ↔
    (∀ i : Fin 31, 1 ≤ ps[i].s ∧ ps[i].s ≤ 16) ∧
    (∀ i : Fin 31, ps[i].a < 2 ^ (ps[i].s - 1)) ∧
    (∀ (i : Fin 31) (k : Nat), 1 ≤ k → k ≤ ps[i].s → ps[i].init k % 2 = 1 ∧ ps[i].init k < 2 ^ k) ∧
    (∀ i j : Fin 31, i ≠ j → (ps[i].s, ps[i].a) ≠ (ps[j].s, ps[j].a))

/-- R112: dimension 0 of every built table, whatever `DIR_PARAMS` is. -/
def Obligations.DimensionZeroIsVanDerCorput : Prop :=
  ∀ (ps : Config.DirParams) (j : BitPos), (tblRead (buildTable ps) 0 j).toNat = 2 ^ (62 - j.val)

/-- R113: the initial entries of a dimension. -/
def Obligations.InitialEntriesAreScaledIntegers : Prop :=
  ∀ (ps : Config.DirParams) (i : Fin 31) (j : BitPos), paramsValid ps = true → j.val < ps[i].s →
    (tblRead (buildTable ps) (BitVec.ofNat 5 (i.val + 1)) j).toNat = ps[i].init (j.val + 1) * 2 ^ (62 - j.val)

/-- R114: the recurrence of a dimension. -/
def Obligations.LaterEntriesFollowTheRecurrence : Prop :=
  ∀ (ps : Config.DirParams) (i : Fin 31) (j : BitPos), paramsValid ps = true → ps[i].s ≤ j.val →
    let v : Nat → Word := fun n => tblRead (buildTable ps) (BitVec.ofNat 5 (i.val + 1)) (Fin.ofNat 63 n)
    let s := ps[i].s
    v j.val = (List.range (s - 1)).foldl
      (fun w k => if ps[i].a.testBit (s - 1 - (k + 1)) then w ^^^ v (j.val - (k + 1)) else w)
      (v (j.val - s) ^^^ (v (j.val - s) >>> s)) ∧ (v j.val).toNat < 2 ^ 63

/-- R118: every entry of a valid table is an odd integer below `2^(j+1)` scaled by `2^(62-j)`. -/
def Obligations.BuiltTableIsTriangular : Prop :=
  ∀ (ps : Config.DirParams) (d : Dim) (j : BitPos), paramsValid ps = true →
    ∃ m, m % 2 = 1 ∧ m < 2 ^ (j.val + 1) ∧ (tblRead (buildTable ps) d j).toNat = m * 2 ^ (62 - j.val)

/-- R118: on a valid table the accumulators of the indices below `2^k` are multiples of `2^(63-k)` below `2^63`, and
different indices have different accumulators. -/
def Obligations.AccumulatorsOfAPrefixAreDistinctMultiples : Prop :=
  ∀ (ps : Config.DirParams) (d : Dim) (k : Nat), paramsValid ps = true → k ≤ 63 →
    (∀ n, n < 2 ^ k → (directAcc (buildTable ps) d n).toNat < 2 ^ 63 ∧
      2 ^ (63 - k) ∣ (directAcc (buildTable ps) d n).toNat) ∧
    (∀ n n', n < 2 ^ k → n' < 2 ^ k → directAcc (buildTable ps) d n = directAcc (buildTable ps) d n' → n = n')

/-! ## Accumulator and normalizer (spec/41_accumulator.md) -/

/-- R140: consecutive Gray codes differ in one bit, the lowest one bit of the greater index. -/
def Obligations.GrayCodesDifferInOneBit : Prop :=
  ∀ m : Nat, ∃ t, (m + 1) % 2 ^ (t + 1) = 2 ^ t ∧ gray m ^^^ gray (m + 1) = 2 ^ t ∧
    (m + 1 < 2 ^ 63 → ∃ h : t < 63, lowestOne (m + 1) = some ⟨t, h⟩)

/-- R142 to R145: from a cache entry that satisfies R25, a refresh in either mode and a recompute leave the same
entry, the direct accumulator; with one of `2^63` or more, which no valid table has, both fault with `RANGE` (R152). -/
def Obligations.RefreshAndRecomputeAgree : Prop :=
  ∀ (t : Table) (e : Engine) (d : Dim) (n : Word), n.toNat < 2 ^ 63 → CacheAgrees t d (cacheAt e d) →
    ((directAcc t d n.toNat).toNat < 2 ^ 63 →
      refresh t e d n = .ok (setCache e d { val := directAcc t d n.toNat, idx := n }) ∧
      recompute t e d n = .ok (setCache e d { val := directAcc t d n.toNat, idx := n })) ∧
    (2 ^ 63 ≤ (directAcc t d n.toNat).toNat →
      recompute t e d n = .error (raised .range) ∧
      ((cacheAt e d).idx ≠ n → refresh t e d n = .error (raised .range)))

/-- R34, R145: the mode changes no register and no response of any command; only `RDREG.CONFIG` shows it. -/
def Obligations.ModeNeverChangesAResult : Prop :=
  ∀ (i : Instr) (s : State) (m : Word), SequenceSound s.table s.eng → i ≠ .rdregConfig →
    m.getLsbD 1 = s.eng.config.getLsbD 1 →
    ∃ e', exec i s = .next { s with eng := e' } ∧
      exec i { s with eng := { s.eng with config := m } } = .next { s with eng := { e' with config := m } }

/-- R12, R213: rounding answers the nearest finite binary64 value, of two nearest the one with an even significand, and
infinity from the middle between the greatest finite value and `2^1024` on. A value is in units of `2^-1074`, the rounded
number in units of `2^-2148`. -/
def Obligations.RoundingIsNearestTiesToEven : Prop :=
  (∀ (n : Nat) (y : F64), rneBits n < 0x7FF0000000000000 → f64Exp y ≠ 2047 →
    let v := f64Mag (f64Pack false (rneBits n))
    ((v : Int) * 2 ^ 1074 - n).natAbs ≤ ((f64Mag y : Int) * 2 ^ 1074 - n).natAbs ∧
    (((v : Int) * 2 ^ 1074 - n).natAbs = ((f64Mag y : Int) * 2 ^ 1074 - n).natAbs → f64Mag y ≠ v →
      rneBits n % 2 = 0)) ∧
  (∀ n : Nat, rneBits n ≤ 0x7FF0000000000000 ∧
    (rneBits n = 0x7FF0000000000000 ↔ (2 ^ 54 - 1) * 2 ^ 3118 ≤ n))

/-- R150, R151: when the normalizer answers 1.0, and when it is exact. -/
def Obligations.NormalizerRangeAndExactness : Prop :=
  (∀ a : Word, a.toNat < 2 ^ 63 →
    (normalizer a = f64One ↔ sampleLimit ≤ a.toNat) ∧
    (a.toNat < sampleLimit → (normalizer a).toNat ≤ 0x3FEFFFFFFFFFFFFF)) ∧
  (∀ (a : Word) (m k : Nat), m < 2 ^ 53 → a.toNat = m * 2 ^ k → a.toNat < 2 ^ 63 →
    f64Neg (normalizer a) = false ∧ f64Mag (normalizer a) * 2 ^ 63 = a.toNat * 2 ^ 1074)

/-! ## Sequence control and table read (spec/42_sequence_control.md, spec/40_table_builder.md) -/

/-- R178. -/
def Obligations.GetdimcntAnswers32 : Prop :=
  ∀ s : State, statusFaulted s.eng.status = false →
    exec .getdimcnt s = .next { s with eng := { s.eng with rsp := okResponse 0x0000000000000020#64 } }

/-- R170, R171: where `SETIDX` completes, and the whole state it leaves: dimension 0 of the new index selected, every
other cache entry and register kept. -/
def Obligations.SetidxSelectsDimensionZero : Prop :=
  ∀ (s : State) (a : Word), statusFaulted s.eng.status = false → a.toNat < 2 ^ 63 →
    (directAcc s.table 0 a.toNat).toNat < sampleLimit →
    exec (.setidx a) s = .next { s with eng := { selected s.table s.eng 0 a with rsp := okResponse 0 } }

/-- R172, R173: where `ADVIDX` completes, and the whole state it leaves. -/
def Obligations.AdvidxSelectsTheNextPoint : Prop :=
  ∀ s : State, statusFaulted s.eng.status = false → s.eng.idx.toNat + 1 < 2 ^ 63 →
    Selectable s.table s.eng 0 (s.eng.idx + 1) →
    exec .advidx s =
      .next { s with eng := { selected s.table s.eng 0 (s.eng.idx + 1) with rsp := okResponse 0 } }

/-- R174, R175: where `SETDIM` completes, and the whole state it leaves. -/
def Obligations.SetdimSelectsTheDimension : Prop :=
  ∀ (s : State) (a : Word), statusFaulted s.eng.status = false → a.toNat < 32 →
    Selectable s.table s.eng (BitVec.ofNat 5 a.toNat) s.eng.idx →
    exec (.setdim a) s = .next { s with
      eng := { selected s.table s.eng (BitVec.ofNat 5 a.toNat) s.eng.idx with rsp := okResponse 0 } }

/-- R176, R177: where `SEEDDIMS` completes: it is `SETIDX` of the exact `SEED_BASE + requestedDims * SEED_STRIDE`. -/
def Obligations.SeeddimsSelectsTheSeededIndex : Prop :=
  ∀ (s : State) (a : Word) (n : Nat), statusFaulted s.eng.status = false →
    n = s.params.seedBase + a.toNat % 2 ^ 32 * s.params.seedStride → n < 2 ^ 63 →
    (directAcc s.table 0 n).toNat < sampleLimit →
    exec (.seeddims a) s =
      .next { s with eng := { selected s.table s.eng 0 (BitVec.ofNat 64 n) with rsp := okResponse 0 } }

/-- R117: `TBLRD` answers the table entry, and faults with `DIM_RANGE` outside the table. -/
def Obligations.TblrdReadsTheTable : Prop :=
  ∀ (s : State) (a b : Word), statusFaulted s.eng.status = false →
    (∀ (_ : a.toNat < 32) (hb : b.toNat < 63), exec (.tblrd a b) s = .next { s with
      eng := { s.eng with rsp := okResponse (tblRead s.table (BitVec.ofNat 5 a.toNat) ⟨b.toNat, hb⟩) } }) ∧
    (32 ≤ a.toNat ∨ 63 ≤ b.toNat → Faults s (exec (.tblrd a b) s) 2 false)

/-- R65: `SETIDX` and `SETDIM` are idempotent: after one that succeeds, a second one leaves the state as it is. -/
def Obligations.SelectionsAreIdempotent : Prop :=
  ∀ (s t : State) (a : Word) (i : Instr), i = .setidx a ∨ i = .setdim a → exec i s = .next t →
    t.eng.rsp = okResponse 0 → exec i t = .next t

/-! ## Extraction (spec/43_extraction.md) -/

/-- R206, R147: where `NEXTVAL` completes below dimension 31: the current value, and the next dimension selected. -/
def Obligations.NextvalMovesToTheNextDimension : Prop :=
  ∀ s : State, statusFaulted s.eng.status = false → s.eng.dim.toNat < 31 →
    Selectable s.table s.eng (s.eng.dim + 1) s.eng.idx →
    exec .nextval s = .next { s with
      eng := { selected s.table s.eng (s.eng.dim + 1) s.eng.idx with rsp := okResponse (currentValue s.eng) } }

/-- R206, R148, R149, R256: where `NEXTVAL` completes at dimension 31: the current value, `WRAP`, and dimension 0 of
the next index selected. -/
def Obligations.NextvalWrapsAtTheLastDimension : Prop :=
  ∀ s : State, statusFaulted s.eng.status = false → s.eng.dim.toNat = 31 → s.eng.idx.toNat + 1 < 2 ^ 63 →
    Selectable s.table s.eng 0 (s.eng.idx + 1) →
    exec .nextval s = .next { s with
      eng := { selected s.table s.eng 0 (s.eng.idx + 1) with
        status := s.eng.status ||| 4#64, rsp := okResponse (currentValue s.eng) } }

/-- R211: where `NEXTDBL` completes, below dimension 31 and at it: the interpolated value in the order and roundings
of R211, and the selection of `NEXTVAL`. -/
def Obligations.NextdblInterpolatesAndMovesOn : Prop :=
  ∀ (s : State) (a b : Word), statusFaulted s.eng.status = false →
    let t := currentValue s.eng
    let r := f64Canon (fadd (fmul a (fsub 0x3FF0000000000000#64 t)) (fmul b t))
    (s.eng.dim.toNat < 31 → Selectable s.table s.eng (s.eng.dim + 1) s.eng.idx →
      exec (.nextdbl a b) s = .next { s with
        eng := { selected s.table s.eng (s.eng.dim + 1) s.eng.idx with rsp := okResponse r } }) ∧
    (s.eng.dim.toNat = 31 → s.eng.idx.toNat + 1 < 2 ^ 63 → Selectable s.table s.eng 0 (s.eng.idx + 1) →
      exec (.nextdbl a b) s = .next { s with
        eng := { selected s.table s.eng 0 (s.eng.idx + 1) with
          status := s.eng.status ||| 4#64, rsp := okResponse r } })

/-- R208, R204: where `NEXTUINT` completes within the budget: `FR` and `PROD` change and no other register. -/
def Obligations.NextuintKeepsTheDimension : Prop :=
  ∀ (s : State) (a b : Word) (lo hi : Nat), statusFaulted s.eng.status = false → FrLegal s.eng.fr →
    lo = a.toNat % 2 ^ 32 → hi = b.toNat % 2 ^ 32 → lo < hi → s.eng.prod.toNat * (hi - lo) ≤ 2048 →
    exec (.nextuint a b) s = .next { s with
      eng := { s.eng with
        fr := fsub (drawnValue s.eng (hi - lo)) (toF64 (drawnOffset s.eng (hi - lo)))
        prod := BitVec.ofNat 64 (s.eng.prod.toNat * (hi - lo))
        rsp := okResponse (BitVec.ofNat 64 (lo + drawnOffset s.eng (hi - lo))) } }

/-- R208, R209: where `NEXTUINT` completes beyond the budget: the draw is answered and the next dimension selected, at
dimension 31 through a wrap. -/
def Obligations.NextuintSpendsTheDimension : Prop :=
  ∀ (s : State) (a b : Word) (lo hi : Nat), statusFaulted s.eng.status = false → FrLegal s.eng.fr →
    lo = a.toNat % 2 ^ 32 → hi = b.toNat % 2 ^ 32 → lo < hi → 2048 < s.eng.prod.toNat * (hi - lo) →
    (s.eng.dim.toNat < 31 → Selectable s.table s.eng (s.eng.dim + 1) s.eng.idx →
      exec (.nextuint a b) s = .next { s with
        eng := { selected s.table s.eng (s.eng.dim + 1) s.eng.idx with
          rsp := okResponse (BitVec.ofNat 64 (lo + drawnOffset s.eng (hi - lo))) } }) ∧
    (s.eng.dim.toNat = 31 → s.eng.idx.toNat + 1 < 2 ^ 63 → Selectable s.table s.eng 0 (s.eng.idx + 1) →
      exec (.nextuint a b) s = .next { s with
        eng := { selected s.table s.eng 0 (s.eng.idx + 1) with
          status := s.eng.status ||| 4#64
          rsp := okResponse (BitVec.ofNat 64 (lo + drawnOffset s.eng (hi - lo))) } })

/-- R203: a bounded draw never rounds up to its range, so `min <= min + v < max`. -/
def Obligations.BoundedDrawStaysInRange : Prop :=
  ∀ (e : Engine) (lo hi : Nat), FrLegal e.fr → lo < hi → hi < 2 ^ 32 →
    f64Neg (drawnValue e (hi - lo)) = false ∧ f64Mag (drawnValue e (hi - lo)) < (hi - lo) * 2 ^ 1074 ∧
    drawnOffset e (hi - lo) ≤ hi - lo - 1 ∧ lo ≤ lo + drawnOffset e (hi - lo) ∧
    lo + drawnOffset e (hi - lo) < hi

/-- R202, R27: the conversion of the range is exact, and so is the subtraction of the integer part, which leaves a
remainder in `[0, 1)`. -/
def Obligations.RemainderIsTheExactFraction : Prop :=
  ∀ (e : Engine) (r : Nat), FrLegal e.fr → 1 ≤ r → r < 2 ^ 32 →
    f64Mag (toF64 r) = r * 2 ^ 1074 ∧
    FrLegal (fsub (drawnValue e r) (toF64 (drawnOffset e r))) ∧
    f64Mag (fsub (drawnValue e r) (toF64 (drawnOffset e r))) + drawnOffset e r * 2 ^ 1074 =
      f64Mag (drawnValue e r)

/-- R205, one draw: with a power of two as its range the draw loses nothing: `FR * R = v + FR'` exactly. -/
def Obligations.PowerOfTwoDrawsLoseNothing : Prop :=
  ∀ (e : Engine) (k : Nat), FrLegal e.fr → k < 32 →
    f64Mag e.fr * 2 ^ k = drawnOffset e (2 ^ k) * 2 ^ 1074 +
      f64Mag (fsub (drawnValue e (2 ^ k)) (toF64 (drawnOffset e (2 ^ k))))

/-- R211, R213: at `t = 0` the interpolation answers `lo` for finite `hi` and non-NaN `lo`, but `+0.0` for `lo = -0.0`
with a `hi` of positive sign; with an infinite or NaN `hi`, or a NaN `lo`, the canonical NaN. -/
def Obligations.InterpolationAtZero : Prop :=
  ∀ lo hi : F64,
    (f64IsNaN lo = false → f64Exp hi ≠ 2047 → interpolate lo hi 0 =
      if lo = 0x8000000000000000#64 ∧ f64Neg hi = false then 0 else lo) ∧
    (f64IsNaN lo = true ∨ f64Exp hi = 2047 → interpolate lo hi 0 = 0x7FF8000000000000#64)

/-- R213: a NaN operand gives the canonical quiet NaN, and so does every other NaN result: no payload or sign of an
operand is ever answered. -/
def Obligations.InterpolationNaNIsCanonical : Prop :=
  ∀ lo hi t : F64,
    (f64IsNaN lo = true ∨ f64IsNaN hi = true → interpolate lo hi t = 0x7FF8000000000000#64) ∧
    (f64IsNaN (interpolate lo hi t) = true → interpolate lo hi t = 0x7FF8000000000000#64)

/-! ## Register reads (spec/44_debug.md) -/

/-- R230 to R234: the sequence and extraction registers, read with nothing changed but the response. -/
def Obligations.RdregReadsTheEngineRegisters : Prop :=
  ∀ s : State, statusFaulted s.eng.status = false →
    exec .rdregIdx s = .next { s with eng := { s.eng with rsp := okResponse s.eng.idx } } ∧
    exec .rdregDim s =
      .next { s with eng := { s.eng with rsp := okResponse (BitVec.ofNat 64 s.eng.dim.toNat) } } ∧
    exec .rdregAcc s =
      .next { s with eng := { s.eng with rsp := okResponse (cacheAt s.eng s.eng.dim).val } } ∧
    exec .rdregFr s = .next { s with eng := { s.eng with rsp := okResponse s.eng.fr } } ∧
    exec .rdregProd s = .next { s with eng := { s.eng with rsp := okResponse s.eng.prod } }

/-- R235, R236: `STATUS` and `CONFIG` are read in every state, halted or not; reading clears nothing. -/
def Obligations.RdregReadsStatusAndConfigAlways : Prop :=
  ∀ s : State,
    exec .rdregStatus s = .next { s with eng := { s.eng with rsp := okResponse s.eng.status } } ∧
    exec .rdregConfig s = .next { s with eng := { s.eng with rsp := okResponse s.eng.config } }

/-- R237, R238: the cache entry of any dimension, and `DIM_RANGE` from 32 on. -/
def Obligations.RdregReadsAnyCacheEntry : Prop :=
  ∀ (s : State) (a : Word), statusFaulted s.eng.status = false →
    (a.toNat < 32 →
      exec (.rdregCval a) s = .next { s with
        eng := { s.eng with rsp := okResponse (cacheAt s.eng (BitVec.ofNat 5 a.toNat)).val } } ∧
      exec (.rdregCidx a) s = .next { s with
        eng := { s.eng with rsp := okResponse (cacheAt s.eng (BitVec.ofNat 5 a.toNat)).idx } }) ∧
    (32 ≤ a.toNat → Faults s (exec (.rdregCval a) s) 2 false ∧ Faults s (exec (.rdregCidx a) s) 2 false)

/-! ## Faults (spec/60_exceptions.md) -/

/-- R254: the cases of `IDX_RANGE`; those reached through a wrap keep `WRAP`. -/
def Obligations.IndexRangeFaults : Prop :=
  ∀ (s : State) (a b : Word), statusFaulted s.eng.status = false →
    (2 ^ 63 ≤ a.toNat → Faults s (exec (.setidx a) s) 3 false) ∧
    (2 ^ 63 ≤ s.params.seedBase + a.toNat % 2 ^ 32 * s.params.seedStride →
      Faults s (exec (.seeddims a) s) 3 false) ∧
    (s.eng.idx.toNat = 2 ^ 63 - 1 → Faults s (exec .advidx s) 3 false) ∧
    (s.eng.idx.toNat = 2 ^ 63 - 1 → s.eng.dim.toNat = 31 →
      Faults s (exec .nextval s) 3 true ∧ Faults s (exec (.nextdbl a b) s) 3 true) ∧
    (s.eng.idx.toNat = 2 ^ 63 - 1 → s.eng.dim.toNat = 31 → FrLegal s.eng.fr →
      a.toNat % 2 ^ 32 < b.toNat % 2 ^ 32 →
      2048 < s.eng.prod.toNat * (b.toNat % 2 ^ 32 - a.toNat % 2 ^ 32) →
      Faults s (exec (.nextuint a b) s) 3 true)

/-- R255: the cases of `DIM_RANGE`; the whole 64-bit operand is compared. -/
def Obligations.DimensionRangeFaults : Prop :=
  ∀ (s : State) (a b : Word), statusFaulted s.eng.status = false →
    (32 ≤ a.toNat → Faults s (exec (.setdim a) s) 2 false ∧ Faults s (exec (.rdregCval a) s) 2 false ∧
      Faults s (exec (.rdregCidx a) s) 2 false) ∧
    (32 ≤ a.toNat ∨ 63 ≤ b.toNat → Faults s (exec (.tblrd a b) s) 2 false)

/-- R210, R257: `NEXTUINT` with `min >= max`. -/
def Obligations.EmptyRangeFaults : Prop :=
  ∀ (s : State) (a b : Word), statusFaulted s.eng.status = false →
    b.toNat % 2 ^ 32 ≤ a.toNat % 2 ^ 32 → Faults s (exec (.nextuint a b) s) 4 false

/-- R258, R146, R151: a selected sample that normalizes to 1.0 faults with `RANGE`, for each of the seven commands that
select a dimension (`NEXTUINT` where it spends the budget, R208); one reached through a wrap keeps `WRAP`. -/
def Obligations.SampleOfOneFaults : Prop :=
  ∀ (s : State) (a b : Word), statusFaulted s.eng.status = false → SequenceSound s.table s.eng →
    (a.toNat < 2 ^ 63 → sampleLimit ≤ (directAcc s.table 0 a.toNat).toNat →
      Faults s (exec (.setidx a) s) 5 false) ∧
    (s.eng.idx.toNat + 1 < 2 ^ 63 → sampleLimit ≤ (directAcc s.table 0 (s.eng.idx.toNat + 1)).toNat →
      Faults s (exec .advidx s) 5 false ∧
      (s.eng.dim.toNat = 31 → Faults s (exec .nextval s) 5 true ∧ Faults s (exec (.nextdbl a b) s) 5 true)) ∧
    (a.toNat < 32 → sampleLimit ≤ (directAcc s.table (BitVec.ofNat 5 a.toNat) s.eng.idx.toNat).toNat →
      Faults s (exec (.setdim a) s) 5 false) ∧
    (s.eng.dim.toNat < 31 → sampleLimit ≤ (directAcc s.table (s.eng.dim + 1) s.eng.idx.toNat).toNat →
      Faults s (exec .nextval s) 5 false ∧ Faults s (exec (.nextdbl a b) s) 5 false) ∧
    (∀ n, n = s.params.seedBase + a.toNat % 2 ^ 32 * s.params.seedStride → n < 2 ^ 63 →
      sampleLimit ≤ (directAcc s.table 0 n).toNat → Faults s (exec (.seeddims a) s) 5 false) ∧
    (FrLegal s.eng.fr → a.toNat % 2 ^ 32 < b.toNat % 2 ^ 32 →
      2048 < s.eng.prod.toNat * (b.toNat % 2 ^ 32 - a.toNat % 2 ^ 32) →
      (s.eng.dim.toNat < 31 → sampleLimit ≤ (directAcc s.table (s.eng.dim + 1) s.eng.idx.toNat).toNat →
        Faults s (exec (.nextuint a b) s) 5 false) ∧
      (s.eng.dim.toNat = 31 → s.eng.idx.toNat + 1 < 2 ^ 63 →
        sampleLimit ≤ (directAcc s.table 0 (s.eng.idx.toNat + 1)).toNat →
        Faults s (exec (.nextuint a b) s) 5 true))

/-- R252: a command that answers a fault leaves every register as it was but `STATUS`, whose three fields are set as
R252 says: `WRAP` is kept, and set exactly where the command flagged it, which the three extraction commands do at
dimension 31 before a fault of code 3 or 5. (For `NEXTUINT`, with `FR` in `[0, 1)`, so that no check comes before the wrap.) -/
def Obligations.FaultsArePrecise : Prop :=
  ∀ (c : Command) (s t : State) (r : Response), statusFaulted s.eng.status = false → serve c s = .next t →
    t.eng.rsp = some r → r.err = true →
    1 ≤ r.cause.toNat ∧ r.cause.toNat ≤ 5 ∧ t = { s with eng := t.eng } ∧
      ∃ wrapped, FaultEntry s.eng t.eng r.cause wrapped ∧
        (wrapped = true → s.eng.dim.toNat = 31 ∧ (c.cw = 5 ∨ c.cw = 6 ∨ c.cw = 7) ∧ (r.cause = 3 ∨ r.cause = 5)) ∧
        (FrLegal s.eng.fr → s.eng.dim.toNat = 31 → c.cw = 5 ∨ c.cw = 6 ∨ c.cw = 7 → r.cause = 3 ∨ r.cause = 5 →
          wrapped = true)

/-- R256, R263: with the build over, a step that does not pulse reset changes neither the `STATUS` of an engine that has
faulted nor any of its sequence registers, and clears no `WRAP`. -/
def Obligations.OnlyResetClearsStatus : Prop :=
  ∀ (s t : State) (k : Nat) (e : Engine), s.bstate ≠ .building →
    (∀ rest, pick s s.host ≠ some (.reset, rest)) → step s = .next t → (engines s)[k]? = some e →
    ∃ e', (engines t)[k]? = some e' ∧
      (statusFaulted e.status = true → e'.status = e.status ∧ e'.idx = e.idx ∧ e'.dim = e.dim ∧
        e'.cache = e.cache ∧ e'.fr = e.fr ∧ e'.prod = e.prod) ∧
      (statusWrap e.status = true → statusWrap e'.status = true)

/-! ## The whole block -/

/-- R31, R32, R116, R293: with the build over, a step that does not pulse reset changes neither the table nor `BSTATE`, a
parameter or the `CONFIG` of an engine. -/
def Obligations.TableAndConfigurationAreImmutable : Prop :=
  ∀ s t : State, s.bstate ≠ .building → (∀ rest, pick s s.host ≠ some (.reset, rest)) → step s = .next t →
    t.table = s.table ∧ t.bstate = s.bstate ∧ t.params = s.params ∧
      (engines t).map Engine.config = (engines s).map Engine.config

/-- R68, R273: a step that transfers with one engine, or moves its strap, leaves every other engine as it was, whatever
else stands in the host's list. -/
def Obligations.OtherEnginesAreUntouched : Prop :=
  ∀ (s t : State) (k j : Nat) (a : HostEvent) (rest : List HostEvent), s.bstate ≠ .building → j ≠ k →
    pick s s.host = some (a, rest) → (a = .take k ∨ (∃ c, a = .command k c) ∨ ∃ level, a = .strap k level) →
    step s = .next t →
    (engines t)[j]? = (engines s)[j]? ∧ (engines t).length = (engines s).length

/-- R68: commands of different engines commute: in either order the same engines, table and builder result. -/
def Obligations.CommandsOfDifferentEnginesCommute : Prop :=
  ∀ (s : State) (k1 k2 : Nat) (e1 e2 : Engine) (c1 c2 : Command), s.bstate ≠ .building → k1 ≠ k2 →
    (engines s)[k1]? = some e1 → (engines s)[k2]? = some e2 → e1.rsp = none → e2.rsp = none →
    ∃ u t u' t', step { s with host := [.command k1 c1, .command k2 c2] } = .next u ∧ step u = .next t ∧
      step { s with host := [.command k2 c2, .command k1 c1] } = .next u' ∧ step u' = .next t' ∧
      engines t = engines t' ∧ t.table = t'.table ∧ t.bstate = t'.bstate ∧ t.params = t'.params ∧
      t.host = [] ∧ t'.host = []

/-- R25, R26, R29, R30, R32, R116, R200: every step keeps the invariant of the block. -/
def Obligations.StepKeepsTheBlockSound : Prop :=
  ∀ s t : State, BlockSound s → step s = .next t → BlockSound t

/-- The block is sound right after reset. -/
def Obligations.ResetIsSound : Prop := BlockSound State.reset ∧ ExtractionSound State.reset

/-- R27, R28, R204: every step keeps `0 <= FR < 1` and `1 <= PROD <= 2048`, in every engine. -/
def Obligations.StepKeepsTheExtractionSound : Prop :=
  ∀ s t : State, ExtractionSound s → step s = .next t → ExtractionSound t
end

