-- ==== Sys2Proof/Laws/State.lean ====
section
/-! SUPPORT. One lemma per field per update of an engine and of the block, so that no later proof unfolds a
record update. -/

namespace Sys2Proof.Machine

open Sys2Proof

section setCache
variable (e : Engine) (d : Dim) (c : CacheEntry)

@[simp] theorem setCache_idx : (setCache e d c).idx = e.idx := rfl
@[simp] theorem setCache_dim : (setCache e d c).dim = e.dim := rfl
@[simp] theorem setCache_fr : (setCache e d c).fr = e.fr := rfl
@[simp] theorem setCache_prod : (setCache e d c).prod = e.prod := rfl
@[simp] theorem setCache_status : (setCache e d c).status = e.status := rfl
@[simp] theorem setCache_config : (setCache e d c).config = e.config := rfl
@[simp] theorem setCache_rsp : (setCache e d c).rsp = e.rsp := rfl
@[simp] theorem setCache_strap : (setCache e d c).strap = e.strap := rfl
@[simp] theorem setCache_observed : (setCache e d c).observed = e.observed := rfl

/-- The entry that was written reads back. -/
@[simp] theorem cacheAt_setCache_same : cacheAt (setCache e d c) d = c := by
  simp [cacheAt, setCache]

/-- Every other entry reads as before. -/
theorem cacheAt_setCache_ne {d' : Dim} (h : d' ≠ d) : cacheAt (setCache e d c) d' = cacheAt e d' := by
  have hn : d.toNat ≠ d'.toNat := fun hn => h (BitVec.eq_of_toNat_eq hn.symm)
  simp [cacheAt, setCache, Vector.getElem_set_ne, hn]

/-- Writing the entry that is there changes nothing. -/
@[simp] theorem setCache_cacheAt : setCache e d (cacheAt e d) = e := by
  cases e; simp [cacheAt, setCache]

/-- The entries alone decide what is read. -/
theorem cacheAt_congr {e e' : Engine} (h : e'.cache = e.cache) (d : Dim) : cacheAt e' d = cacheAt e d := by
  simp [cacheAt, h]

end setCache

section respond
variable (e : Engine) (w : Word)

@[simp] theorem respond_idx : (respond e w).idx = e.idx := rfl
@[simp] theorem respond_dim : (respond e w).dim = e.dim := rfl
@[simp] theorem respond_cache : (respond e w).cache = e.cache := rfl
@[simp] theorem respond_fr : (respond e w).fr = e.fr := rfl
@[simp] theorem respond_prod : (respond e w).prod = e.prod := rfl
@[simp] theorem respond_status : (respond e w).status = e.status := rfl
@[simp] theorem respond_config : (respond e w).config = e.config := rfl
@[simp] theorem respond_rsp : (respond e w).rsp = some { err := false, cause := 0, data := w } := rfl
@[simp] theorem respond_strap : (respond e w).strap = e.strap := rfl
@[simp] theorem respond_observed : (respond e w).observed = e.observed := rfl

end respond

section refuse
variable (e : Engine)

@[simp] theorem refuse_idx : (refuse e).idx = e.idx := rfl
@[simp] theorem refuse_dim : (refuse e).dim = e.dim := rfl
@[simp] theorem refuse_cache : (refuse e).cache = e.cache := rfl
@[simp] theorem refuse_fr : (refuse e).fr = e.fr := rfl
@[simp] theorem refuse_prod : (refuse e).prod = e.prod := rfl
@[simp] theorem refuse_status : (refuse e).status = e.status := rfl
@[simp] theorem refuse_config : (refuse e).config = e.config := rfl
@[simp] theorem refuse_rsp : (refuse e).rsp = some { err := true, cause := 7, data := 0 } := rfl
@[simp] theorem refuse_strap : (refuse e).strap = e.strap := rfl
@[simp] theorem refuse_observed : (refuse e).observed = e.observed := rfl

end refuse

section onFault
variable (e : Engine) (a : Abort)

@[simp] theorem onFault_idx : (onFault e a).idx = e.idx := rfl
@[simp] theorem onFault_dim : (onFault e a).dim = e.dim := rfl
@[simp] theorem onFault_cache : (onFault e a).cache = e.cache := rfl
@[simp] theorem onFault_fr : (onFault e a).fr = e.fr := rfl
@[simp] theorem onFault_prod : (onFault e a).prod = e.prod := rfl
@[simp] theorem onFault_config : (onFault e a).config = e.config := rfl
@[simp] theorem onFault_strap : (onFault e a).strap = e.strap := rfl
@[simp] theorem onFault_observed : (onFault e a).observed = e.observed := rfl
@[simp] theorem onFault_rsp :
    (onFault e a).rsp = some { err := true, cause := faultNumber a.code, data := 0 } := rfl

end onFault

section block
variable (s : State) (f : Engine → Engine)

@[simp] theorem mapEngines_params : (mapEngines f s).params = s.params := rfl
@[simp] theorem mapEngines_bstate : (mapEngines f s).bstate = s.bstate := rfl
@[simp] theorem mapEngines_table : (mapEngines f s).table = s.table := rfl
@[simp] theorem mapEngines_host : (mapEngines f s).host = s.host := rfl
@[simp] theorem mapEngines_eng : (mapEngines f s).eng = f s.eng := rfl

/-- An update of every engine is an update of the list of engines. -/
@[simp] theorem engines_mapEngines : engines (mapEngines f s) = (engines s).map f := by
  simp [engines, mapEngines]

@[simp] theorem resetBlock_params : (resetBlock s).params = s.params := rfl
@[simp] theorem resetBlock_bstate : (resetBlock s).bstate = .building := rfl
@[simp] theorem resetBlock_host : (resetBlock s).host = s.host := rfl

/-- Reset reaches every engine. -/
@[simp] theorem engines_resetBlock :
    engines (resetBlock s) = (engines s).map (resetEngine s.params.nvSource) := by
  simp [engines, resetBlock]

@[simp] theorem buildSucceeds_bstate : (buildSucceeds s).bstate = .built := rfl
@[simp] theorem buildSucceeds_params : (buildSucceeds s).params = s.params := rfl
@[simp] theorem buildSucceeds_host : (buildSucceeds s).host = s.host := rfl
@[simp] theorem buildSucceeds_table : (buildSucceeds s).table = buildTable s.params.dirParams := rfl
@[simp] theorem buildFails_bstate : (buildFails s).bstate = .failed := rfl
@[simp] theorem buildFails_params : (buildFails s).params = s.params := rfl
@[simp] theorem buildFails_host : (buildFails s).host = s.host := rfl
@[simp] theorem buildFails_table : (buildFails s).table = s.table := rfl

end block

end Sys2Proof.Machine
end

