-- ==== Sys2Proof/Laws/Status.lean ====
section
/-! SUPPORT. What each update of `STATUS` does to each of its fields, and what `CONFIG` holds. -/

namespace Sys2Proof.Machine

open Sys2Proof

@[simp] theorem statusReady_setReady (w : Word) : statusReady (statusSetReady w) = true := by
  simp [statusReady, statusSetReady]

@[simp] theorem statusFaulted_setReady (w : Word) : statusFaulted (statusSetReady w) = statusFaulted w := by
  simp [statusFaulted, statusSetReady]

@[simp] theorem statusWrap_setReady (w : Word) : statusWrap (statusSetReady w) = statusWrap w := by
  simp [statusWrap, statusSetReady]

@[simp] theorem statusCause_setReady (w : Word) : statusCause (statusSetReady w) = statusCause w := by
  have h : ∀ i < 4, (1#64).getLsbD (8 + i) = false := by decide
  ext i hi
  simp only [statusCause, statusSetReady, BitVec.getElem_extractLsb', BitVec.getLsbD_or, h i hi, Bool.or_false]

@[simp] theorem statusReady_setWrap (w : Word) : statusReady (statusSetWrap w) = statusReady w := by
  simp [statusReady, statusSetWrap]

@[simp] theorem statusFaulted_setWrap (w : Word) : statusFaulted (statusSetWrap w) = statusFaulted w := by
  simp [statusFaulted, statusSetWrap]

@[simp] theorem statusWrap_setWrap (w : Word) : statusWrap (statusSetWrap w) = true := by
  simp [statusWrap, statusSetWrap]

@[simp] theorem statusCause_setWrap (w : Word) : statusCause (statusSetWrap w) = statusCause w := by
  have h : ∀ i < 4, (4#64).getLsbD (8 + i) = false := by decide
  ext i hi
  simp only [statusCause, statusSetWrap, BitVec.getElem_extractLsb', BitVec.getLsbD_or, h i hi, Bool.or_false]

@[simp] theorem statusReady_setFault (c : FaultCode) (w : Word) :
    statusReady (statusSetFault c w) = statusReady w := by
  simp [statusReady, statusSetFault]

@[simp] theorem statusFaulted_setFault (c : FaultCode) (w : Word) :
    statusFaulted (statusSetFault c w) = true := by
  simp [statusFaulted, statusSetFault]

@[simp] theorem statusWrap_setFault (c : FaultCode) (w : Word) :
    statusWrap (statusSetFault c w) = statusWrap w := by
  simp [statusWrap, statusSetFault]

@[simp] theorem statusCause_setFault (c : FaultCode) (w : Word) :
    statusCause (statusSetFault c w) = faultNumber c := by
  have h1 : ∀ i < 4, (~~~0xF00#64).getLsbD (8 + i) = false := by decide
  have h2 : ∀ i < 4, (2#64).getLsbD (8 + i) = false := by decide
  ext i hi
  have : ¬ 8 + i < 8 := by omega
  simp only [statusCause, statusSetFault, BitVec.getElem_extractLsb', BitVec.getLsbD_or, BitVec.getLsbD_and,
    BitVec.getLsbD_shiftLeft, h1 i hi, h2 i hi, this]
  have h64 : 8 + i < 64 := by omega
  have hi' : 8 + i - 8 = i := by omega
  have hi64 : i < 64 := by omega
  simp [h64, hi', hi64, BitVec.getLsbD_eq_getElem hi]

@[simp] theorem configIncremental_configWord (m : Bool) (nv : Config.NvSource) :
    configIncremental (configWord m nv) = m := by
  cases m <;> cases nv <;> decide

@[simp] theorem configRemainder_configWord (m : Bool) (nv : Config.NvSource) :
    configRemainder (configWord m nv) = decide (nv = .remainder) := by
  cases m <;> cases nv <;> decide

end Sys2Proof.Machine
end

