-- ==== Sys2Proof/Laws/Ops.lean ====
section
/-! SUPPORT. What each shared operation can do, said once. -/

namespace Sys2Proof.Machine

open Sys2Proof

/-- Selecting an engine changes the split of the list of engines and nothing else. -/
theorem focus_eq_some {k : Nat} {s s' : State} (h : focus k s = some s') :
    engines s' = engines s ∧ engineNo s' = k ∧ (engines s)[k]? = some s'.eng ∧
      s' = { s with lower := s'.lower, eng := s'.eng, upper := s'.upper } := by
  unfold focus at h
  split at h
  · cases h
  · rename_i e up hd
    cases h
    have hk : k < (engines s).length := by
      by_contra hk
      rw [List.drop_eq_nil_of_le (by omega)] at hd
      cases hd
    have hget : (engines s)[k]? = some e := by
      have := congrArg (fun l : List Engine => l[0]?) hd
      simpa using this
    refine ⟨?_, ?_, hget, rfl⟩
    · show (engines s).take k ++ e :: up = engines s
      rw [← hd, List.take_append_drop]
    · simp [engineNo, Nat.min_eq_left hk.le]

/-- There is no engine `k` exactly when `k` is not below the number of engines. -/
theorem focus_eq_none {k : Nat} {s : State} : focus k s = none ↔ (engines s).length ≤ k := by
  unfold focus
  split
  · rename_i hd
    simpa using hd
  · rename_i e up hd
    simp only [reduceCtorEq, false_iff, Nat.not_le]
    by_contra hk
    rw [List.drop_eq_nil_of_le (by omega)] at hd
    cases hd

/-- Selecting the engine that is served changes nothing. -/
@[simp] theorem focus_self (s : State) : focus (engineNo s) s = some s := by
  simp [focus, engines, engineNo]

/-- A command always answers a next state: refused, or completed. -/
theorem answer_eq (s : State) (body : Except Abort (Engine × Word)) :
    (statusFaulted s.eng.status = true ∧ answer s body = .next { s with eng := refuse s.eng }) ∨
    (statusFaulted s.eng.status = false ∧ ∃ e w, body = .ok (e, w) ∧
      answer s body = .next { s with eng := respond e w }) ∨
    (statusFaulted s.eng.status = false ∧ ∃ a, body = .error a ∧
      answer s body = .next { s with eng := onFault s.eng a }) := by
  rcases hf : statusFaulted s.eng.status with _ | _
  · rcases body with a | ⟨e, w⟩
    · exact .inr (.inr ⟨rfl, a, rfl, by simp [answer, halted, hf, complete]⟩)
    · exact .inr (.inl ⟨rfl, e, w, rfl, by simp [answer, halted, hf, complete]⟩)
  · exact .inl ⟨rfl, by simp [answer, halted, hf]⟩

/-- A successful command of an engine that is not halted. -/
theorem answer_ok {s : State} {e : Engine} {w : Word} (hf : statusFaulted s.eng.status = false) :
    answer s (.ok (e, w)) = .next { s with eng := respond e w } := by
  simp [answer, halted, hf, complete]

/-- A faulting command of an engine that is not halted. -/
theorem answer_error {s : State} {a : Abort} (hf : statusFaulted s.eng.status = false) :
    answer s (.error a) = .next { s with eng := onFault s.eng a } := by
  simp [answer, halted, hf, complete]

/-- A command of a halted engine. -/
theorem answer_halted {s : State} {body : Except Abort (Engine × Word)}
    (hf : statusFaulted s.eng.status = true) : answer s body = .next { s with eng := refuse s.eng } := by
  simp [answer, halted, hf]

end Sys2Proof.Machine
end

