-- ==== Sys2Proof/Laws/Accumulator.lean ====
section
/-! SUPPORT. What each micro-operation can do: if it answers an engine, which one; if it faults, why. -/

namespace Sys2Proof.Machine

open Sys2Proof

variable {t : Table} {e e' : Engine} {d : Dim} {n v : Word} {a : Abort}

/-- The range check and the cache write. -/
theorem storeAcc_ok (h : storeAcc e d v n = .ok e') :
    v.toNat < 2 ^ 63 ∧ e' = setCache e d { val := v, idx := n } := by
  unfold storeAcc at h
  split at h
  · cases h
  · rename_i hv
    exact ⟨by simpa [Config.idxLimit] using hv, by cases h; rfl⟩

theorem storeAcc_error (h : storeAcc e d v n = .error a) : 2 ^ 63 ≤ v.toNat ∧ a = raised .range := by
  unfold storeAcc at h
  split at h
  · rename_i hv
    exact ⟨by simpa [Config.idxLimit] using hv, by cases h; rfl⟩
  · cases h

/-- A refresh leaves the engine, or writes one cache entry with the value of its strategy. -/
theorem refresh_ok (h : refresh t e d n = .ok e') :
    ((cacheAt e d).idx = n ∧ e' = e) ∨
    ((cacheAt e d).idx ≠ n ∧ ∃ v, v.toNat < 2 ^ 63 ∧ e' = setCache e d { val := v, idx := n } ∧
      v = if configIncremental e.config then incrementalWalk t d (cacheAt e d) n.toNat
          else directAcc t d n.toNat) := by
  unfold refresh at h
  split at h
  · rename_i hc
    exact .inl ⟨hc, by cases h; rfl⟩
  · rename_i hc
    split at h
    · rename_i hm
      obtain ⟨hv, rfl⟩ := storeAcc_ok h
      exact .inr ⟨hc, _, hv, rfl, by simp [hm]⟩
    · rename_i hm
      obtain ⟨hv, rfl⟩ := storeAcc_ok h
      exact .inr ⟨hc, _, hv, rfl, by simp [hm]⟩

theorem refresh_error (h : refresh t e d n = .error a) : a = raised .range := by
  unfold refresh at h
  split at h
  · cases h
  · split at h <;> exact (storeAcc_error h).2

/-- A recompute writes one cache entry. -/
theorem recompute_ok (h : recompute t e d n = .ok e') :
    (directAcc t d n.toNat).toNat < 2 ^ 63 ∧ e' = setCache e d { val := directAcc t d n.toNat, idx := n } :=
  storeAcc_ok h

theorem recompute_error (h : recompute t e d n = .error a) : a = raised .range :=
  (storeAcc_error h).2

/-- A load writes `FR` and `PROD`. -/
theorem load_ok (h : load e d = .ok e') :
    f64GeOne (normalizer (cacheAt e d).val) = false ∧
      e' = { e with fr := normalizer (cacheAt e d).val, prod := 1 } := by
  unfold load at h
  dsimp only at h
  split at h
  · cases h
  · rename_i hx
    exact ⟨by simpa using hx, by cases h; rfl⟩

theorem load_error (h : load e d = .error a) :
    f64GeOne (normalizer (cacheAt e d).val) = true ∧ a = raised .range := by
  unfold load at h
  dsimp only at h
  split at h
  · rename_i hx
    exact ⟨by simpa using hx, by cases h; rfl⟩
  · cases h

/-- A refresh followed by a load. -/
theorem refreshLoad_ok (h : refreshLoad t e d n = .ok e') :
    ∃ e1, refresh t e d n = .ok e1 ∧ load e1 d = .ok e' := by
  unfold refreshLoad at h
  split at h
  · cases h
  · exact ⟨_, ‹_›, h⟩

theorem refreshLoad_error (h : refreshLoad t e d n = .error a) : a = raised .range := by
  unfold refreshLoad at h
  split at h
  · cases h
    exact refresh_error ‹_›
  · exact (load_error h).2

/-- A recompute followed by a load. -/
theorem recomputeLoad_ok (h : recomputeLoad t e d n = .ok e') :
    ∃ e1, recompute t e d n = .ok e1 ∧ load e1 d = .ok e' := by
  unfold recomputeLoad at h
  split at h
  · cases h
  · exact ⟨_, ‹_›, h⟩

theorem recomputeLoad_error (h : recomputeLoad t e d n = .error a) : a = raised .range := by
  unfold recomputeLoad at h
  split at h
  · cases h
    exact recompute_error ‹_›
  · exact (load_error h).2

/-- The index advance selects dimension 0 of the next index. -/
theorem advanceIndex_ok (h : advanceIndex t e = .ok e') :
    e.idx.toNat + 1 < 2 ^ 63 ∧
      refreshLoad t { e with idx := e.idx + 1, dim := 0 } 0 (e.idx + 1) = .ok e' := by
  unfold advanceIndex at h
  split at h
  · cases h
  · rename_i hi
    exact ⟨by simp only [Config.idxLimit] at hi; omega, h⟩

theorem advanceIndex_error (h : advanceIndex t e = .error a) :
    (2 ^ 63 ≤ e.idx.toNat + 1 ∧ a = raised .idxRange) ∨ a = raised .range := by
  unfold advanceIndex at h
  split at h
  · rename_i hi
    exact .inl ⟨by simp only [Config.idxLimit] at hi; omega, by cases h; rfl⟩
  · exact .inr (refreshLoad_error h)

/-- The wrap is the index advance with `WRAP` flagged, kept even by its fault. -/
theorem wrap_ok (h : wrap t e = .ok e') :
    advanceIndex t { e with status := statusSetWrap e.status } = .ok e' := by
  unfold wrap at h
  split at h
  · cases h
  · cases h
    assumption

theorem wrap_error (h : wrap t e = .error a) : a.wrapped = true ∧ (a.code = .idxRange ∨ a.code = .range) := by
  unfold wrap at h
  split at h
  · rename_i b hb
    cases h
    refine ⟨rfl, ?_⟩
    rcases advanceIndex_error hb with ⟨-, rfl⟩ | rfl
    · exact .inl rfl
    · exact .inr rfl
  · cases h

/-- The dimension advance: the next dimension, or from dimension 31 the wrap. -/
theorem advanceDim_ok (h : advanceDim t e = .ok e') :
    (e.dim.toNat < 31 ∧ refreshLoad t { e with dim := e.dim + 1 } (e.dim + 1) e.idx = .ok e') ∨
    (31 ≤ e.dim.toNat ∧ wrap t e = .ok e') := by
  unfold advanceDim at h
  split at h
  · exact .inl ⟨‹_›, h⟩
  · exact .inr ⟨by omega, h⟩

theorem advanceDim_error (h : advanceDim t e = .error a) :
    (e.dim.toNat < 31 ∧ a = raised .range) ∨ (31 ≤ e.dim.toNat ∧ wrap t e = .error a) := by
  unfold advanceDim at h
  split at h
  · exact .inl ⟨‹_›, refreshLoad_error h⟩
  · exact .inr ⟨by omega, h⟩

/-- Moving on and answering. -/
theorem advanceAndAnswer_ok {w w' : Word} (h : advanceAndAnswer t e w = .ok (e', w')) :
    w' = w ∧ advanceDim t e = .ok e' := by
  unfold advanceAndAnswer at h
  split at h
  · cases h
  · cases h
    exact ⟨rfl, ‹_›⟩

theorem advanceAndAnswer_error {w : Word} (h : advanceAndAnswer t e w = .error a) :
    advanceDim t e = .error a := by
  unfold advanceAndAnswer at h
  split at h
  · cases h
    assumption
  · cases h

/-- Seeking an index. -/
theorem seek_ok {k : Nat} {w : Word} (h : seek t e k = .ok (e', w)) :
    k < 2 ^ 63 ∧ w = 0 ∧
      recomputeLoad t { e with idx := BitVec.ofNat 64 k, dim := 0 } 0 (BitVec.ofNat 64 k) = .ok e' := by
  unfold seek at h
  split at h
  · cases h
  · rename_i hk
    split at h
    · cases h
    · cases h
      exact ⟨by simpa [Config.idxLimit] using hk, rfl, ‹_›⟩

theorem seek_error {k : Nat} (h : seek t e k = .error a) :
    (2 ^ 63 ≤ k ∧ a = raised .idxRange) ∨ (k < 2 ^ 63 ∧ a = raised .range) := by
  unfold seek at h
  split at h
  · rename_i hk
    exact .inl ⟨by simpa [Config.idxLimit] using hk, by cases h; rfl⟩
  · rename_i hk
    split at h
    · cases h
      exact .inr ⟨by simpa [Config.idxLimit] using hk, recomputeLoad_error ‹_›⟩
    · cases h

/-- A bounded draw keeps the dimension, or spends it. -/
theorem boundedDraw_ok {lo hi : Nat} {w : Word} (h : boundedDraw t e lo hi = .ok (e', w)) :
    lo < hi ∧ f64Floor (drawProduct e.fr (hi - lo)) < hi - lo ∧
      w = BitVec.ofNat 64 (lo + f64Floor (drawProduct e.fr (hi - lo))) ∧
      ((2048 < e.prod.toNat * (hi - lo) ∧ advanceDim t e = .ok e') ∨
       (e.prod.toNat * (hi - lo) ≤ 2048 ∧
        e' = { e with
          fr := fsub (drawProduct e.fr (hi - lo)) (toF64 (f64Floor (drawProduct e.fr (hi - lo))))
          prod := BitVec.ofNat 64 (e.prod.toNat * (hi - lo)) })) := by
  unfold boundedDraw at h
  split at h
  · cases h
  · rename_i hlt
    dsimp only at h
    split at h
    · cases h
    · rename_i hv
      split at h
      · rename_i hp
        obtain ⟨rfl, ha⟩ := advanceAndAnswer_ok h
        exact ⟨by omega, by omega, rfl, .inl ⟨hp, ha⟩⟩
      · rename_i hp
        cases h
        exact ⟨by omega, by omega, rfl, .inr ⟨by simpa [Config.precBudget] using hp, rfl⟩⟩

theorem boundedDraw_error {lo hi : Nat} (h : boundedDraw t e lo hi = .error a) :
    (hi ≤ lo ∧ a = raised .bounds) ∨
    (lo < hi ∧ hi - lo ≤ f64Floor (drawProduct e.fr (hi - lo)) ∧ a = raised .range) ∨
    (lo < hi ∧ 2048 < e.prod.toNat * (hi - lo) ∧ advanceDim t e = .error a) := by
  unfold boundedDraw at h
  split at h
  · rename_i hle
    exact .inl ⟨hle, by cases h; rfl⟩
  · rename_i hlt
    dsimp only at h
    split at h
    · rename_i hv
      exact .inr (.inl ⟨by omega, hv, by cases h; rfl⟩)
    · split at h
      · rename_i hp
        exact .inr (.inr ⟨by omega, hp, advanceAndAnswer_error h⟩)
      · cases h

/-- The accumulator of index 0 is 0 in every dimension (R141). -/
@[simp] theorem directAcc_zero : directAcc t d 0 = 0 := by
  have : ∀ (l : List BitPos) (acc : Word),
      l.foldl (fun acc j => if (gray 0).testBit j.val then acc ^^^ tblRead t d j else acc) acc = acc := by
    intro l
    induction l with
    | nil => intro acc; rfl
    | cons j l ih => intro acc; simp [gray]
  exact this _ _

end Sys2Proof.Machine
end

