-- ==== Sys2Proof/Laws/PerInstr.lean ====
section
/-! SUPPORT. Facts about every command as syntax, one lemma per constructor. -/

namespace Sys2Proof.Laws.EncodedWordShape

open Sys2Proof

/-- A command word with no reserved bit set, a legal opcode, and a selector only for `RDREG`, and then a legal
one (R82, R86, R87). -/
abbrev Shape (cw : Half) : Prop :=
  rsvOf cw = 0 ∧ 1 ≤ (opcOf cw).toNat ∧ (opcOf cw).toNat ≤ 0x0A ∧ (opcOf cw ≠ 0x0A → selOf cw = 0) ∧
    (selOf cw).toNat ≤ 8

/-- The word a command is encoded as has that shape. -/
def Statement (i : Instr) : Prop := Shape (encodeWord i)

theorem getdimcnt : Statement .getdimcnt := by show Shape 0x00000001; decide
theorem setidx (a : Word) : Statement (.setidx a) := by show Shape 0x00000002; decide
theorem advidx : Statement .advidx := by show Shape 0x00000003; decide
theorem setdim (a : Word) : Statement (.setdim a) := by show Shape 0x00000004; decide
theorem nextval : Statement .nextval := by show Shape 0x00000005; decide
theorem nextuint (a b : Word) : Statement (.nextuint a b) := by show Shape 0x00000006; decide
theorem nextdbl (a b : Word) : Statement (.nextdbl a b) := by show Shape 0x00000007; decide
theorem seeddims (a : Word) : Statement (.seeddims a) := by show Shape 0x00000008; decide
theorem tblrd (a b : Word) : Statement (.tblrd a b) := by show Shape 0x00000009; decide
theorem rdregIdx : Statement .rdregIdx := by show Shape 0x0000000A; decide
theorem rdregDim : Statement .rdregDim := by show Shape 0x0000010A; decide
theorem rdregAcc : Statement .rdregAcc := by show Shape 0x0000020A; decide
theorem rdregFr : Statement .rdregFr := by show Shape 0x0000030A; decide
theorem rdregProd : Statement .rdregProd := by show Shape 0x0000040A; decide
theorem rdregStatus : Statement .rdregStatus := by show Shape 0x0000050A; decide
theorem rdregConfig : Statement .rdregConfig := by show Shape 0x0000060A; decide
theorem rdregCval (a : Word) : Statement (.rdregCval a) := by show Shape 0x0000070A; decide
theorem rdregCidx (a : Word) : Statement (.rdregCidx a) := by show Shape 0x0000080A; decide

end Sys2Proof.Laws.EncodedWordShape
end

