-- ==== Sys2Proof/Laws/Step.lean ====
section
/-! SUPPORT. What one step and one transfer with the host can do, said once. -/

namespace Sys2Proof.Machine

open Sys2Proof

/-- While the build runs the step is the build; afterwards it is the next transfer with the host. -/
theorem step_cases (s : State) :
    (s.bstate = .building ∧ step s = .next (build s)) ∨ (s.bstate ≠ .building ∧ step s = hostTransfer s) := by
  unfold step
  split <;> simp_all

/-- The build ends one of two ways. -/
theorem build_cases (s : State) :
    (paramsValid s.params.dirParams = true ∧ build s = buildSucceeds s) ∨
    (paramsValid s.params.dirParams = false ∧ build s = buildFails s) := by
  unfold build
  split
  · exact .inl ⟨‹_›, rfl⟩
  · exact .inr ⟨Bool.eq_false_of_not_eq_true ‹_›, rfl⟩

/-- The picked action can happen, every action before it cannot, and the others keep their order. -/
theorem pick_some {s : State} {l : List HostEvent} {a : HostEvent} {rest : List HostEvent}
    (h : pick s l = some (a, rest)) :
    ∃ before later, l = before ++ a :: later ∧ rest = before ++ later ∧ actionReady s a = true ∧
      ∀ b ∈ before, actionReady s b = false := by
  induction l generalizing rest with
  | nil => cases h
  | cons b l ih =>
    unfold pick at h
    split at h
    · cases h
      exact ⟨[], _, rfl, rfl, ‹_›, nofun⟩
    · rename_i hb
      split at h
      · cases h
      · rename_i others hp
        cases h
        obtain ⟨before, later, rfl, rfl, hr, hn⟩ := ih hp
        exact ⟨b :: before, later, rfl, rfl, hr,
          List.forall_mem_cons.2 ⟨Bool.eq_false_of_not_eq_true hb, hn⟩⟩

/-- No action is picked exactly when none can happen. -/
theorem pick_none {s : State} {l : List HostEvent} :
    pick s l = none ↔ ∀ a ∈ l, actionReady s a = false := by
  induction l with
  | nil => simp [pick]
  | cons a l ih =>
    cases h : actionReady s a
    · cases hp : pick s l <;> simp_all [pick]
    · simp [pick, h]

/-- A first action that can happen is the one that is picked. -/
@[simp] theorem pick_ready {s : State} {a : HostEvent} {l : List HostEvent} (h : actionReady s a = true) :
    pick s (a :: l) = some (a, l) := by simp [pick, h]

/-- A transfer: nothing can happen, or the picked action is performed. -/
theorem hostTransfer_cases (s : State) :
    (pick s s.host = none ∧ hostTransfer s = .next s) ∨
    (∃ a rest, pick s s.host = some (a, rest) ∧ hostTransfer s = perform { s with host := rest } a) := by
  unfold hostTransfer
  split
  · exact .inl ⟨‹_›, rfl⟩
  · exact .inr ⟨_, _, ‹_›, rfl⟩

/-- A command transfer that answers serves the command on the engine it names. -/
theorem transferCommand_next {k : Nat} {c : Command} {s s' : State} (h : transferCommand k c s = .next s') :
    ∃ s1, focus k s = some s1 ∧ serve c s1 = .next s' := by
  unfold transferCommand at h
  split at h
  · cases h
  · exact ⟨_, ‹_›, h⟩

/-- A response transfer that answers: the host has the response. -/
theorem transferResponse_next {k : Nat} {s s' : State} (h : transferResponse k s = .next s') :
    ∃ s1, focus k s = some s1 ∧ s' = { s1 with
      eng := { s1.eng with rsp := none, observed := s1.eng.observed ++ s1.eng.rsp.toList } } := by
  unfold transferResponse at h
  split at h
  · cases h
  · exact ⟨_, ‹_›, by cases h; rfl⟩

/-- Driving a strap. -/
theorem driveStrap_next {k : Nat} {level : Bool} {s s' : State} (h : driveStrap k level s = .next s') :
    ∃ s1, focus k s = some s1 ∧ s' = { s1 with eng := { s1.eng with strap := level } } := by
  unfold driveStrap at h
  split at h
  · cases h
  · exact ⟨_, ‹_›, by cases h; rfl⟩

/-- What a command does: refuse, complete, or take a fault; and nothing of the block but the engine that is
served can change. -/
theorem exec_next (i : Instr) (s : State) :
    ∃ e, exec i s = .next { s with eng := e } := by
  have h : ∀ body, ∃ e, answer s body = .next { s with eng := e } := fun body => ⟨_, rfl⟩
  cases i <;> first | exact h _ | exact ⟨_, rfl⟩

theorem serve_next (c : Command) (s : State) : ∃ e, serve c s = .next { s with eng := e } := by
  unfold serve
  split
  · exact exec_next _ s
  · exact ⟨_, rfl⟩

end Sys2Proof.Machine
end

