-- ==== Sys2Proof/Tests/Slice0.lean ====
section
/-! SUPPORT. Tests on fixed values: decoding of words written from spec/30_encoding.md, the ill-formed terms, vectors of
spec/95_test_vectors.md one step each, and a state and operands that meet the hypotheses of each statement. -/

namespace Sys2Proof.Tests

set_option Elab.async false

open Sys2Proof Sys2Proof.Machine

/-! ## Well-formedness -/

theorem test_wf_nextuint_min : (Instr.nextuint 0x100000000 5).wellFormed = false := by decide
theorem test_wf_nextuint_max : (Instr.nextuint 5 0x100000000).wellFormed = false := by decide
theorem test_wf_seeddims : (Instr.seeddims 0x100000000).wellFormed = false := by decide

/-! ## Decoding: `OPC` bits 7:0, `SEL` bits 11:8, `RSV` bits 31:12 (R82, R86, R87) -/

theorem test_decode_getdimcnt : decode ⟨0b00000000000000000000_0000_00000001, 7, 9⟩ = .ok .getdimcnt := by decide
theorem test_decode_setidx : decode ⟨0b00000000000000000000_0000_00000010, 0x8000, 9⟩ = .ok (.setidx 0x8000) := by
  decide
theorem test_decode_advidx : decode ⟨0b00000000000000000000_0000_00000011, 7, 9⟩ = .ok .advidx := by decide
theorem test_decode_setdim : decode ⟨0b00000000000000000000_0000_00000100, 31, 9⟩ = .ok (.setdim 31) := by decide
theorem test_decode_nextval : decode ⟨0b00000000000000000000_0000_00000101, 7, 9⟩ = .ok .nextval := by decide
theorem test_decode_nextuint :
    decode ⟨0b00000000000000000000_0000_00000110, 10, 20⟩ = .ok (.nextuint 10 20) := by decide
theorem test_decode_nextdbl :
    decode ⟨0b00000000000000000000_0000_00000111, 0xBFF0000000000000, 0x3FF0000000000000⟩ =
      .ok (.nextdbl 0xBFF0000000000000 0x3FF0000000000000) := by decide
theorem test_decode_seeddims : decode ⟨0b00000000000000000000_0000_00001000, 3, 9⟩ = .ok (.seeddims 3) := by decide
theorem test_decode_tblrd : decode ⟨0b00000000000000000000_0000_00001001, 5, 3⟩ = .ok (.tblrd 5 3) := by decide
theorem test_decode_rdregIdx : decode ⟨0b00000000000000000000_0000_00001010, 7, 9⟩ = .ok .rdregIdx := by decide
theorem test_decode_rdregDim : decode ⟨0b00000000000000000000_0001_00001010, 7, 9⟩ = .ok .rdregDim := by decide
theorem test_decode_rdregAcc : decode ⟨0b00000000000000000000_0010_00001010, 7, 9⟩ = .ok .rdregAcc := by decide
theorem test_decode_rdregFr : decode ⟨0b00000000000000000000_0011_00001010, 7, 9⟩ = .ok .rdregFr := by decide
theorem test_decode_rdregProd : decode ⟨0b00000000000000000000_0100_00001010, 7, 9⟩ = .ok .rdregProd := by decide
theorem test_decode_rdregStatus : decode ⟨0b00000000000000000000_0101_00001010, 7, 9⟩ = .ok .rdregStatus := by
  decide
theorem test_decode_rdregConfig : decode ⟨0b00000000000000000000_0110_00001010, 7, 9⟩ = .ok .rdregConfig := by
  decide
theorem test_decode_rdregCval : decode ⟨0b00000000000000000000_0111_00001010, 3, 9⟩ = .ok (.rdregCval 3) := by decide
theorem test_decode_rdregCidx : decode ⟨0b00000000000000000000_1000_00001010, 3, 9⟩ = .ok (.rdregCidx 3) := by decide

theorem test_decode_zero : decode ⟨0x00000000, 0, 0⟩ = .error .reservedOpcode := by decide
theorem test_decode_opcode_0B : decode ⟨0x0000000B, 0, 0⟩ = .error .reservedOpcode := by decide
theorem test_decode_reserved_bit : decode ⟨0x00001002, 0, 0⟩ = .error .reservedBits := by decide
theorem test_decode_selector_on_nextval : decode ⟨0x00000105, 0, 0⟩ = .error .selectorNotZero := by decide
theorem test_decode_selector_9 : decode ⟨0x0000090A, 0, 0⟩ = .error .reservedSelector := by decide
theorem test_decode_upper_min : decode ⟨0x00000006, 0x100000000, 5⟩ = .error .operandUpperHalf := by decide
theorem test_decode_upper_max : decode ⟨0x00000006, 5, 0x100000000⟩ = .error .operandUpperHalf := by decide
theorem test_decode_upper_dims : decode ⟨0x00000008, 0x100000000, 0⟩ = .error .operandUpperHalf := by decide

theorem test_table_word : decodeTableWord 32 0x80A = some (.rdregCidx 0) := by decide
theorem test_table_word_operands :
    decodeTableWord 160 (0x00000006 + 10 * 2 ^ 32 + 20 * 2 ^ 96) = some (.nextuint 10 20) := by decide
theorem test_assembly : assembly (.nextuint 10 255) = "nextuint 0xa, 0xff" := by decide +kernel
/-- R92 and R90: a binary64 literal is rounded, a comment is dropped. -/
theorem test_assemble_nextdbl : assembleLine "nextdbl -1.0, 0.1 ; two".toList =
    some [⟨7, 0xBFF0000000000000, 0x3FB999999999999A⟩] := by decide +kernel
theorem test_assemble_range : assembleLine "nextdbl 1e400, -inf".toList =
    some [⟨7, 0x7FF0000000000000, 0xFFF0000000000000⟩] := by decide +kernel
/-- V-X6: a decimal number with either sign. -/
theorem test_assemble_signs : assembleLine "nextdbl -0.0, +0.0".toList = some [⟨7, 0x8000000000000000, 0⟩] ∧
    assembleLine "nextdbl +2.5e-1, 1.0".toList = some [⟨7, 0x3FD0000000000000, 0x3FF0000000000000⟩] := by
  decide +kernel
theorem test_assemble_assembly : assembleLine (assembly (.rdregCval 3)).toList = some [⟨0x70A, 3, 0⟩] := by
  decide +kernel
theorem test_assemble_reject : assembleLine "setidx".toList = none ∧ assembleLine "rdreg acc, 1".toList = none ∧
    assembleLine "nextdbl 1, 2".toList = none ∧ assembleLine "nop".toList = none := by decide +kernel
theorem test_pseudo_draw3 : expandPseudo .draw3 = [.nextval, .nextval, .nextval] := by decide

/-! ## The example parameters of 95_test_vectors.md section 2 -/

/-- `m_k = 1` for every `k` of a degree. -/
def ones (s a : Nat) : Config.DirParam := ⟨s, a, List.replicate s 1⟩

/-- `EX_PARAMS`. -/
def exParams : Config.DirParams :=
  ⟨#[⟨1, 0, [1]⟩, ⟨2, 1, [1, 3]⟩, ⟨3, 1, [1, 3, 1]⟩, ⟨3, 2, [1, 1, 1]⟩, ⟨4, 1, [1, 1, 3, 3]⟩, ones 4 4, ones 5 2,
    ones 5 4, ones 5 7, ones 5 11, ones 5 13, ones 5 14, ones 6 1, ones 6 13, ones 6 16, ones 6 19, ones 6 22,
    ones 6 25, ones 7 1, ones 7 4, ones 7 7, ones 7 8, ones 7 14, ones 7 19, ones 7 21, ones 7 28, ones 7 31,
    ones 7 32, ones 7 37, ones 7 41, ones 7 42], rfl⟩

theorem test_exParams_valid : paramsValid exParams = true := by decide +kernel

/-- `EX_PARAMS` with one dimension changed (vectors V-B2). -/
def changed (i : Fin 31) (p : Config.DirParam) : Config.DirParams := exParams.set i.val p

theorem test_invalid_even_m : paramsValid (changed 6 ⟨5, 2, [1, 1, 1, 1, 2]⟩) = false := by decide +kernel
theorem test_invalid_large_m : paramsValid (changed 1 ⟨2, 1, [1, 5]⟩) = false := by decide +kernel
theorem test_invalid_degree_0 : paramsValid (changed 0 ⟨0, 0, []⟩) = false := by decide +kernel
theorem test_invalid_degree_17 : paramsValid (changed 30 (ones 17 1)) = false := by decide +kernel
theorem test_invalid_coefficient : paramsValid (changed 2 ⟨3, 4, [1, 3, 1]⟩) = false := by decide +kernel
theorem test_invalid_same_polynomial : paramsValid (changed 5 (ones 4 1)) = false := by decide +kernel

/-- The table of `EX_PARAMS`. -/
def exTable : Table := buildTable exParams

theorem test_build_0_62 : tblRead exTable 0 62 = 1 := by decide +kernel
theorem test_build_1_62 : tblRead exTable 1 62 = 0x5555555555555555 := by decide +kernel
theorem test_build_2_62 : tblRead exTable 2 62 = 0x3077000077777777 := by decide +kernel
theorem test_build_5_62 : tblRead exTable 5 62 = 0x30006B6B6B6B6B6B := by decide +kernel
theorem test_build_7_62 : tblRead exTable 7 62 = 0x400395A529541001 := by decide +kernel
theorem test_build_3_9 : tblRead exTable 3 9 = 149#64 <<< 53 := by decide +kernel

/-! ## Accumulator, normalizer and binary64 arithmetic (V-A1, V-A2, section 3.3) -/

theorem test_direct_1_8 : directAcc exTable 1 8 = 0x2800000000000000 := by decide +kernel
theorem test_direct_5_6 : directAcc exTable 5 6 = 0x7000000000000000 := by decide +kernel
theorem test_direct_2_large : directAcc exTable 2 (2 ^ 63 - 1) = 0x3077000077777777 := by decide +kernel
theorem test_walk_up : incrementalWalk exTable 3 ⟨0x4000000000000000, 1⟩ 5 = 0x3000000000000000 := by decide +kernel
theorem test_walk_down : incrementalWalk exTable 0 ⟨0x1800000000000000, 8⟩ 3 = 0x2000000000000000 := by
  decide +kernel

theorem test_normalizer_smallest : normalizer 1 = 0x3C00000000000000 := by decide +kernel
theorem test_normalizer_tie : normalizer 0x0020000000000001 = 0x3F50000000000000 := by decide +kernel
theorem test_normalizer_up : normalizer 0x0020000000000003 = 0x3F50000000000002 := by decide +kernel
theorem test_normalizer_below : normalizer 0x7FFFFFFFFFFFFDFF = 0x3FEFFFFFFFFFFFFF := by decide +kernel
theorem test_normalizer_one : normalizer 0x7FFFFFFFFFFFFE00 = 0x3FF0000000000000 := by decide +kernel

/-- `2^-1074 * 0.5` is a tie and goes to zero (V-X6). -/
theorem test_fmul_subnormal_tie : fmul 1 0x3FE0000000000000 = 0 := by decide +kernel
theorem test_fmul_overflow : fmul 0x7FE0000000000000 0x4000000000000000 = 0x7FF0000000000000 := by decide +kernel
theorem test_fadd_inf_minus_inf : fadd 0x7FF0000000000000 0xFFF0000000000000 = 0x7FF8000000000000 := by
  decide +kernel
theorem test_fsub_rounds_to_one : fsub f64One 0x3C00000000000000 = 0x3FF0000000000000 := by decide +kernel
theorem test_fsub_equal : fsub f64One f64One = 0 := by decide +kernel

/-! ## One step from a small state -/

/-- An engine ready for commands: the reset values and `READY`. -/
def exEngine (incremental : Bool) (nv : Config.NvSource) : Engine :=
  { Engine.atReset incremental nv [] with status := 1 }

/-- A block with one engine. -/
def blockOf (p : Config.Params) (e : Engine) : State :=
  { params := p, bstate := .built, table := exTable, lower := [], eng := e, upper := [], host := [] }

/-- The example configuration of V-S9. -/
def exConfig : Config.Params := ⟨exParams, 1000, 7, .accum⟩

/-- Dimension `d` of index `n` selected, in either mode. -/
def pointState (incremental : Bool) (nv : Config.NvSource) (n : Word) (d : Dim) : State :=
  blockOf exConfig (selected exTable (exEngine incremental nv) d n)

/-- Ready, nothing selected yet. -/
def exState : State := blockOf exConfig (exEngine true .accum)

/-- Halted after a `DIM_RANGE` fault. -/
def haltedState : State := blockOf exConfig { exEngine true .accum with status := 0x203 }

/-- The engine after one step in which the host presents a command to it. -/
def after (s : State) (c : Command) : Option Engine :=
  match step { s with host := [.command 0 c] } with
  | .next t => some t.eng
  | .fault _ => none
  | .refused _ => none

/-- Response, `IDX`, `DIM`, `FR`, `PROD` and `STATUS` after one step. -/
def seen (s : State) (c : Command) : Option (Option Response × Nat × Nat × Nat × Nat × Nat) :=
  (after s c).map fun e => (e.rsp, e.idx.toNat, e.dim.toNat, e.fr.toNat, e.prod.toNat, e.status.toNat)

/-- The cache entry of dimension `d` after one step. -/
def entry (s : State) (c : Command) (d : Dim) : Option CacheEntry := (after s c).map fun e => cacheAt e d

/-- V-S13. -/
theorem test_getdimcnt : seen exState ⟨1, 0, 0⟩ = some (some ⟨false, 0, 0x20⟩, 0, 0, 0, 1, 1) := by decide +kernel
/-- V-S1. -/
theorem test_setidx :
    seen exState ⟨2, 1, 0⟩ = some (some ⟨false, 0, 0⟩, 1, 0, 0x3FE0000000000000, 1, 1) := by decide +kernel
/-- V-S4. -/
theorem test_setidx_range :
    seen exState ⟨2, 0x002AAAAAAAAAAAAA, 0⟩ = some (some ⟨true, 5, 0⟩, 0, 0, 0, 1, 0x503) := by decide +kernel
/-- V-S5. -/
theorem test_advidx : seen (pointState true .accum 1 0) ⟨3, 0, 0⟩ =
    some (some ⟨false, 0, 0⟩, 2, 0, 0x3FE8000000000000, 1, 1) := by decide +kernel
/-- V-S6. -/
theorem test_advidx_top : seen (pointState true .accum 0x7FFFFFFFFFFFFFFF 0) ⟨3, 0, 0⟩ =
    some (some ⟨true, 3, 0⟩, 0x7FFFFFFFFFFFFFFF, 0, 0x3C00000000000000, 1, 0x303) := by decide +kernel
/-- V-S7. -/
theorem test_setdim : seen (pointState true .accum 3 0) ⟨4, 0, 0⟩ =
    some (some ⟨false, 0, 0⟩, 3, 0, 0x3FD0000000000000, 1, 1) := by decide +kernel
/-- V-S8b. -/
theorem test_setdim_wide : seen (pointState true .accum 3 0) ⟨4, 0x100000001, 0⟩ =
    some (some ⟨true, 2, 0⟩, 3, 0, 0x3FD0000000000000, 1, 0x203) := by decide +kernel
/-- V-S9. -/
theorem test_seeddims : seen exState ⟨8, 3, 0⟩ =
    some (some ⟨false, 0, 0⟩, 1021, 0, 0x3FE8080000000000, 1, 1) := by decide +kernel
/-- V-S10. -/
theorem test_seeddims_range : seen { exState with params := ⟨exParams, 2 ^ 62, 2 ^ 31, .accum⟩ } ⟨8, 0x80000000, 0⟩ =
    some (some ⟨true, 3, 0⟩, 0, 0, 0, 1, 0x303) := by decide +kernel
/-- V-X1, first row. -/
theorem test_nextval : seen (pointState true .accum 2 0) ⟨5, 0, 0⟩ =
    some (some ⟨false, 0, 0x3FE8000000000000⟩, 2, 1, 0x3FD0000000000000, 1, 1) := by decide +kernel
/-- V-X1, third row: the wrap. -/
theorem test_nextval_wrap : seen (pointState true .accum 7 31) ⟨5, 0, 0⟩ =
    some (some ⟨false, 0, 0x3FC0000000000000⟩, 8, 0, 0x3FC8000000000000, 1, 5) := by decide +kernel
/-- V-X1, last row: `WRAP` is kept by the fault. -/
theorem test_nextval_top : ((after (pointState false .accum 0x7FFFFFFFFFFFFFFF 31) ⟨5, 0, 0⟩).map fun e =>
    (e.rsp, e.idx, e.dim, e.status)) = some (some ⟨true, 3, 0⟩, 0x7FFFFFFFFFFFFFFF, 31, 0x307) := by decide +kernel
/-- V-X2: the remainder is the source. -/
theorem test_nextval_remainder :
    seen (blockOf exConfig { selected exTable (exEngine true .remainder) 0 5 with fr := 0x3FE8000000000000 }) ⟨5, 0, 0⟩ =
      some (some ⟨false, 0, 0x3FE8000000000000⟩, 5, 1, 0x3FEC000000000000, 1, 1) := by decide +kernel
/-- V-X3, first row. -/
theorem test_nextuint : seen (pointState true .accum 2 0) ⟨6, 10, 20⟩ =
    some (some ⟨false, 0, 17⟩, 2, 0, 0x3FE0000000000000, 10, 1) := by decide +kernel
/-- V-X3, third row: the budget is spent. -/
theorem test_nextuint_spends : seen (pointState true .accum 1 0) ⟨6, 0, 0xFFFFFFFF⟩ =
    some (some ⟨false, 0, 0x7FFFFFFF⟩, 1, 1, 0x3FE0000000000000, 1, 1) := by decide +kernel
/-- V-X3, fourth row. -/
theorem test_nextuint_empty : seen (pointState true .accum 1 0) ⟨6, 5, 5⟩ =
    some (some ⟨true, 4, 0⟩, 1, 0, 0x3FE0000000000000, 1, 0x403) := by decide +kernel
/-- V-X6, first row. -/
theorem test_nextdbl : seen (pointState true .accum 2 0) ⟨7, 0xBFF0000000000000, 0x3FF0000000000000⟩ =
    some (some ⟨false, 0, 0x3FE0000000000000⟩, 2, 1, 0x3FD0000000000000, 1, 1) := by decide +kernel
/-- V-X6, eighth row: a signalling NaN comes out canonical. -/
theorem test_nextdbl_nan : ((after (pointState true .accum 1 0) ⟨7, 0xFFF0000000000001, 0x3FF0000000000000⟩).map
    Engine.rsp) = some (some ⟨false, 0, 0x7FF8000000000000⟩) := by decide +kernel
/-- Section 3.6. -/
theorem test_tblrd : ((after exState ⟨9, 5, 3⟩).map Engine.rsp) = some (some ⟨false, 0, 0x1800000000000000⟩) := by
  decide +kernel
/-- Section 3.6. -/
theorem test_tblrd_range : seen exState ⟨9, 0, 63⟩ = some (some ⟨true, 2, 0⟩, 0, 0, 0, 1, 0x203) := by decide +kernel
theorem test_rdregIdx : ((after (pointState true .accum 32768 0) ⟨0xA, 0, 0⟩).map Engine.rsp) =
    some (some ⟨false, 0, 0x8000⟩) := by decide +kernel
theorem test_rdregDim : ((after (pointState true .accum 5 2) ⟨0x10A, 0, 0⟩).map Engine.rsp) =
    some (some ⟨false, 0, 2⟩) := by decide +kernel
theorem test_rdregAcc : ((after (pointState true .accum 5 0) ⟨0x20A, 0, 0⟩).map Engine.rsp) =
    some (some ⟨false, 0, 0x7000000000000000⟩) := by decide +kernel
theorem test_rdregFr : ((after (pointState true .accum 5 0) ⟨0x30A, 0, 0⟩).map Engine.rsp) =
    some (some ⟨false, 0, 0x3FEC000000000000⟩) := by decide +kernel
theorem test_rdregProd : ((after exState ⟨0x40A, 0, 0⟩).map Engine.rsp) = some (some ⟨false, 0, 1⟩) := by
  decide +kernel
theorem test_rdregStatus_halted : seen haltedState ⟨0x50A, 0, 0⟩ =
    some (some ⟨false, 0, 0x203⟩, 0, 0, 0, 1, 0x203) := by decide +kernel
theorem test_rdregConfig_halted : seen haltedState ⟨0x60A, 0, 0⟩ =
    some (some ⟨false, 0, 0x00000008003F2001⟩, 0, 0, 0, 1, 0x203) := by decide +kernel
theorem test_rdregConfig_direct : ((after (pointState false .remainder 0 0) ⟨0x60A, 0, 0⟩).map Engine.rsp) =
    some (some ⟨false, 0, 0x00000008003F2002⟩) := by decide +kernel
theorem test_rdregCval : ((after (pointState true .accum 5 1) ⟨0x70A, 1, 0⟩).map Engine.rsp) =
    some (some ⟨false, 0, 0x7000000000000000⟩) := by decide +kernel
theorem test_rdregCidx : ((after (pointState true .accum 5 1) ⟨0x80A, 1, 0⟩).map Engine.rsp) =
    some (some ⟨false, 0, 5⟩) := by decide +kernel
/-- Section 3.7: refusal comes before decoding, and `rdreg status` with a reserved bit is not the exact word. -/
theorem test_halted_illegal : seen haltedState ⟨0, 0, 0⟩ = some (some ⟨true, 7, 0⟩, 0, 0, 0, 1, 0x203) := by
  decide +kernel
theorem test_halted_inexact : seen haltedState ⟨0x150A, 0, 0⟩ = some (some ⟨true, 7, 0⟩, 0, 0, 0, 1, 0x203) := by
  decide +kernel
theorem test_illegal : seen exState ⟨0, 0, 0⟩ = some (some ⟨true, 1, 0⟩, 0, 0, 0, 1, 0x103) := by decide +kernel
/-- V-A3 and P5: the entry of a refreshed dimension, and one that still lags. -/
theorem test_setdim_entry : entry (pointState true .accum 5 0) ⟨4, 3, 0⟩ 3 = some ⟨0x3000000000000000, 5⟩ := by
  decide +kernel
theorem test_setdim_lag : entry (pointState true .accum 5 0) ⟨4, 3, 0⟩ 2 = some ⟨0, 0⟩ := by decide +kernel
/-- V-B2: a failed build. -/
theorem test_build_fail :
    (build { exState with params := { exConfig with dirParams := changed 0 ⟨0, 0, []⟩ }, bstate := .building,
                          eng := Engine.atReset true .accum [] }).eng.status = 0x602 := by decide +kernel
/-- The very next step after `withFetchWord` at reset runs the command. -/
theorem test_fetch_reset : (match step (State.reset.withFetchWord 32 1) with
    | .next t => t.eng.rsp
    | .fault _ => none
    | .refused _ => none) = some ⟨false, 0, 0x20⟩ := by decide +kernel

/-- R273, R296: a command that waits on one engine does not keep another engine waiting. -/
theorem test_ports_are_separate : pick (blockOf exConfig { exEngine true .accum with rsp := some ⟨false, 0, 32⟩ })
    [.command 0 ⟨1, 0, 0⟩, .take 0] = some (.take 0, [.command 0 ⟨1, 0, 0⟩]) := by decide +kernel

/-! ## A state and operands that meet the hypotheses of each statement -/

/-- The reset values satisfy R25 and R26 with any table. -/
theorem sound_at_zero (t : Table) (incremental : Bool) (nv : Config.NvSource) :
    SequenceSound t (exEngine incremental nv) := by
  have hc : ∀ d, cacheAt (exEngine incremental nv) d = ⟨0, 0⟩ := fun d => by
    simp [cacheAt, exEngine, Engine.atReset]
  refine ⟨by simp [exEngine, Engine.atReset], fun d => ?_, by rw [hc]; rfl, ?_⟩
  · rw [hc]
    refine ⟨by decide, ?_⟩
    show (0 : Word) = directAcc t d 0
    rw [directAcc_zero]
  · rw [hc]
    decide +kernel

/-- A state in which dimension `d` of index `n` is selected satisfies R25 and R26 when the sample is below 1.0. -/
theorem sound_at_point (incremental : Bool) (nv : Config.NvSource) (n : Word) (d : Dim) (hn : n.toNat < 2 ^ 63)
    (hs : (normalizer (directAcc exTable d n.toNat)).toNat < f64One.toNat) :
    SequenceSound exTable (pointState incremental nv n d).eng := by
  have h0 := sound_at_zero exTable incremental nv
  have hsame : cacheAt (pointState incremental nv n d).eng d = ⟨directAcc exTable d n.toNat, n⟩ :=
    (cacheAt_congr rfl d).trans (cacheAt_setCache_same (exEngine incremental nv) d _)
  refine ⟨hn, fun d' => ?_, ?_, ?_⟩
  · by_cases hd : d' = d
    · subst hd
      rw [hsame]
      exact And.intro hn (Eq.refl (directAcc exTable d' n.toNat))
    · have : cacheAt (pointState incremental nv n d).eng d' = cacheAt (exEngine incremental nv) d' :=
        (cacheAt_congr rfl d').trans (cacheAt_setCache_ne _ d _ hd)
      rw [this]
      exact h0.2.1 d'
  · show (cacheAt (pointState incremental nv n d).eng d).idx = n
    rw [hsame]
  · show (normalizer (cacheAt (pointState incremental nv n d).eng d).val).toNat < f64One.toNat
    rw [hsame]
    exact hs

/-- A dimension of a state in which one is selected can itself be selected. -/
theorem selectable_of_sound {s : State} {d : Dim} {n : Word} (h : SequenceSound s.table s.eng)
    (hn : n.toNat < 2 ^ 63) (hv : (directAcc s.table d n.toNat).toNat < sampleLimit) :
    Selectable s.table s.eng d n := ⟨hn, h.2.1 d, hv⟩

/-- A block of two engines with no response held. -/
def twoEngines : State := { exState with upper := [exEngine false .accum] }

/-- A block right after reset, before the build. -/
def unbuiltState (ps : Config.DirParams) : State :=
  { exState with params := { exConfig with dirParams := ps }, bstate := .building,
                 eng := Engine.atReset true .accum [] }

/-- An engine that holds a response. -/
def heldState (host : List HostEvent) : State :=
  { blockOf exConfig { exEngine true .accum with rsp := some ⟨false, 0, 32⟩ } with host := host }

theorem witness_EncodedCommandsDecodeBack : (Instr.nextuint 0xFFFFFFFF 0xFFFFFFFF).wellFormed = true := by decide
theorem witness_DecodedCommandsHaveOneWord :
    decode ⟨0x80A, 0xFFFFFFFFFFFFFFFF, 1⟩ = .ok (.rdregCidx 0xFFFFFFFFFFFFFFFF) := by decide
/-- One command for each way of being illegal, at the edge of its range. -/
theorem witness_IllegalEncodingsFault : statusFaulted exState.eng.status = false ∧
    IllegalCommand ⟨0, 0, 0⟩ ∧ IllegalCommand ⟨0x0B, 0, 0⟩ ∧ IllegalCommand ⟨0x1001, 0, 0⟩ ∧
    IllegalCommand ⟨0x109, 0, 0⟩ ∧ IllegalCommand ⟨0x90A, 0, 0⟩ ∧ IllegalCommand ⟨6, 0x100000000, 0⟩ ∧
    IllegalCommand ⟨6, 0, 0x100000000⟩ ∧ IllegalCommand ⟨8, 0x100000000, 0⟩ := by
  refine ⟨by decide, ?_, ?_, ?_, ?_, ?_, ?_, ?_, ?_⟩ <;> unfold IllegalCommand <;> decide
theorem witness_IllegalEncodingsFault_legal : ¬ IllegalCommand ⟨1, 0, 0⟩ ∧ ¬ IllegalCommand ⟨0x80A, 0, 0⟩ ∧
    ¬ IllegalCommand ⟨6, 0xFFFFFFFF, 0xFFFFFFFF⟩ := by
  refine ⟨?_, ?_, ?_⟩ <;> unfold IllegalCommand <;> decide
theorem witness_UnusedOperandsIgnored :
    ((0x60A : Half) = 0x001 ∨ (0x60A : Half) = 0x60A) ∧ ((0x80A : Half) = 0x002 ∨ (0x80A : Half) = 0x80A) := by decide
theorem witness_StepRunsTheDecodedCommand :
    ({ twoEngines with host := [.command 0 ⟨5, 0, 0⟩] } : State).bstate ≠ .building ∧
    focus 0 { twoEngines with host := [.command 0 ⟨5, 0, 0⟩] } = some { twoEngines with host := [.command 0 ⟨5, 0, 0⟩] } ∧
    twoEngines.eng.rsp = none ∧ decode ⟨5, 0, 0⟩ = .ok .nextval ∧
    pick { twoEngines with host := [.take 0, .command 0 ⟨5, 0, 0⟩] } [.take 0, .command 0 ⟨5, 0, 0⟩] =
      some (.command 0 ⟨5, 0, 0⟩, [.take 0]) :=
  ⟨by decide, rfl, rfl, by decide, rfl⟩
theorem witness_CommandsWaitForTheBuild : (unbuiltState exParams).bstate = .building := rfl
theorem witness_HeldResponseBlocksCommands :
    (heldState [.command 0 ⟨1, 0, 0⟩]).bstate ≠ .building ∧
    focus 0 (heldState [.command 0 ⟨1, 0, 0⟩]) = some (heldState [.command 0 ⟨1, 0, 0⟩]) ∧
    (heldState [.command 0 ⟨1, 0, 0⟩]).eng.rsp = some ⟨false, 0, 32⟩ ∧
    focus 0 (heldState [.command 0 ⟨1, 0, 0⟩, .take 0]) = some (heldState [.command 0 ⟨1, 0, 0⟩, .take 0]) :=
  ⟨by decide, rfl, rfl, rfl⟩
theorem witness_TakenResponseFreesThePort :
    (heldState [.take 0]).bstate ≠ .building ∧ focus 0 (heldState [.take 0]) = some (heldState [.take 0]) ∧
    (heldState [.take 0]).eng.rsp = some ⟨false, 0, 32⟩ := ⟨by decide, rfl, rfl⟩
theorem witness_HaltedEngineRefuses : statusFaulted haltedState.eng.status = true ∧
    (0x150A : Half) ≠ 0x0000050A ∧ (0x150A : Half) ≠ 0x0000060A := by decide
theorem witness_ResetGivesEveryRegisterItsValue :
    Engine.atReset (Config.strap 0) Config.nvSource [] ∈ engines State.reset := by simp [engines, State.reset]
theorem witness_ResetPulseRestoresEveryEngine :
    (heldState [.reset]).bstate ≠ .building ∧ (heldState [.reset]).host = [.reset] ∧
    (engines (heldState [.reset]))[0]? = some (heldState [.reset]).eng := ⟨by decide, rfl, rfl⟩
theorem witness_StrapIsSampledAtResetOnly :
    (heldState [.strap 0 false]).bstate ≠ .building ∧
    focus 0 (heldState [.strap 0 false]) = some (heldState [.strap 0 false]) := ⟨by decide, rfl⟩
theorem witness_BuildEndsBuiltOrFailed :
    paramsValid (unbuiltState exParams).params.dirParams = true ∧
    paramsValid (unbuiltState (changed 0 ⟨0, 0, []⟩)).params.dirParams = false := by decide +kernel
theorem witness_InitialEntriesAreScaledIntegers :
    paramsValid exParams = true ∧ (0 : BitPos).val < exParams[0].s ∧ (6 : BitPos).val < exParams[30].s := by
  decide +kernel
theorem witness_LaterEntriesFollowTheRecurrence :
    paramsValid exParams = true ∧ exParams[0].s ≤ (1 : BitPos).val ∧ exParams[30].s ≤ (62 : BitPos).val := by
  decide +kernel
theorem witness_BuiltTableIsTriangular : paramsValid exParams = true := test_exParams_valid
theorem witness_AccumulatorsOfAPrefixAreDistinctMultiples :
    paramsValid exParams = true ∧ 63 ≤ 63 ∧ 2 ^ 63 - 1 < 2 ^ 63 := ⟨test_exParams_valid, by decide, by decide⟩
theorem witness_RefreshAndRecomputeAgree :
    (5#64).toNat < 2 ^ 63 ∧ CacheAgrees exTable 3 (cacheAt exState.eng 3) ∧
    (directAcc exTable 3 (5#64).toNat).toNat < 2 ^ 63 :=
  ⟨by decide, (sound_at_zero exTable true .accum).2.1 3, by decide +kernel⟩
/-- A table that no build gives, with an accumulator of `2^63`. -/
def highTable : Table := Vector.replicate 32 (Vector.replicate 63 (0x8000000000000000#64))
theorem witness_RefreshAndRecomputeAgree_range :
    (1#64).toNat < 2 ^ 63 ∧ CacheAgrees highTable 3 (cacheAt exState.eng 3) ∧
    2 ^ 63 ≤ (directAcc highTable 3 (1#64).toNat).toNat ∧ (cacheAt exState.eng 3).idx ≠ 1 :=
  ⟨by decide, (sound_at_zero highTable true .accum).2.1 3, by decide +kernel, by decide +kernel⟩
theorem witness_ModeNeverChangesAResult :
    SequenceSound (pointState true .accum 5 0).table (pointState true .accum 5 0).eng ∧
    Instr.nextval ≠ .rdregConfig ∧
    (configWord false .accum).getLsbD 1 = (pointState true .accum 5 0).eng.config.getLsbD 1 :=
  ⟨sound_at_point true .accum 5 0 (by decide) (by decide +kernel), by decide, by decide +kernel⟩
theorem witness_RoundingIsNearestTiesToEven :
    rneBits (3 * 2 ^ 1073) < 0x7FF0000000000000 ∧ f64Exp 1 ≠ 2047 := by decide +kernel
/-- The least number that rounds to infinity, and the one below it. -/
theorem test_rounding_overflow : rneBits ((2 ^ 54 - 1) * 2 ^ 3118) = 0x7FF0000000000000 ∧
    rneBits ((2 ^ 54 - 1) * 2 ^ 3118 - 1) = 0x7FEFFFFFFFFFFFFF := by decide +kernel
theorem witness_NormalizerRangeAndExactness :
    (0x7FFFFFFFFFFFFE00#64).toNat < 2 ^ 63 ∧ sampleLimit ≤ (0x7FFFFFFFFFFFFE00#64).toNat ∧
    (0x7FFFFFFFFFFFFDFF#64).toNat < sampleLimit ∧
    2 ^ 53 - 1 < 2 ^ 53 ∧ (0x7FFFFFFFFFFFFC00#64).toNat = (2 ^ 53 - 1) * 2 ^ 10 := by decide +kernel

/-- Not halted: the state of every completion below. -/
theorem witness_GetdimcntAnswers32 : statusFaulted exState.eng.status = false := by decide
theorem witness_SetidxSelectsDimensionZero : statusFaulted exState.eng.status = false ∧
    (0x7FFFFFFFFFFFFFFF#64).toNat < 2 ^ 63 ∧
    (directAcc exState.table 0 (0x7FFFFFFFFFFFFFFF#64).toNat).toNat < sampleLimit := by decide +kernel
theorem witness_AdvidxSelectsTheNextPoint :
    statusFaulted exState.eng.status = false ∧ exState.eng.idx.toNat + 1 < 2 ^ 63 ∧
    Selectable exState.table exState.eng 0 (exState.eng.idx + 1) :=
  ⟨by decide, by decide, selectable_of_sound (sound_at_zero exTable true .accum) (by decide) (by decide +kernel)⟩
theorem witness_SetdimSelectsTheDimension :
    statusFaulted exState.eng.status = false ∧ (31#64).toNat < 32 ∧
    Selectable exState.table exState.eng (BitVec.ofNat 5 (31#64).toNat) exState.eng.idx :=
  ⟨by decide, by decide, selectable_of_sound (sound_at_zero exTable true .accum) (by decide) (by decide +kernel)⟩
theorem witness_SeeddimsSelectsTheSeededIndex :
    statusFaulted exState.eng.status = false ∧
    1021 = exState.params.seedBase + (3#64).toNat % 2 ^ 32 * exState.params.seedStride ∧ 1021 < 2 ^ 63 ∧
    (directAcc exState.table 0 1021).toNat < sampleLimit := by decide +kernel
theorem witness_TblrdReadsTheTable : statusFaulted exState.eng.status = false ∧
    (31#64).toNat < 32 ∧ (62#64).toNat < 63 ∧ 32 ≤ (32#64).toNat ∧ 63 ≤ (63#64).toNat := by decide
theorem witness_SelectionsAreIdempotent :
    ∃ t t', exec (.setidx 5) exState = .next t ∧ t.eng.rsp = okResponse 0 ∧
      exec (.setdim 3) exState = .next t' ∧ t'.eng.rsp = okResponse 0 :=
  ⟨_, _, rfl, by decide +kernel, rfl, by decide +kernel⟩
theorem witness_NextvalMovesToTheNextDimension :
    statusFaulted (pointState true .accum 5 30).eng.status = false ∧ (pointState true .accum 5 30).eng.dim.toNat < 31 ∧
    Selectable (pointState true .accum 5 30).table (pointState true .accum 5 30).eng
      ((pointState true .accum 5 30).eng.dim + 1) (pointState true .accum 5 30).eng.idx :=
  ⟨by decide, by decide, selectable_of_sound (sound_at_point true .accum 5 30 (by decide) (by decide +kernel))
    (by decide) (by decide +kernel)⟩
/-- Also the hypotheses of `NextdblInterpolatesAndMovesOn` at dimension 31. -/
theorem witness_NextvalWrapsAtTheLastDimension :
    statusFaulted (pointState true .accum 7 31).eng.status = false ∧
    (pointState true .accum 7 31).eng.dim.toNat = 31 ∧
    (pointState true .accum 7 31).eng.idx.toNat + 1 < 2 ^ 63 ∧
    Selectable (pointState true .accum 7 31).table (pointState true .accum 7 31).eng 0
      ((pointState true .accum 7 31).eng.idx + 1) :=
  ⟨by decide, by decide, by decide,
    selectable_of_sound (sound_at_point true .accum 7 31 (by decide) (by decide +kernel)) (by decide)
      (by decide +kernel)⟩
/-- The rest of the hypotheses of both clauses are those of the two `NEXTVAL` witnesses. -/
theorem witness_NextdblInterpolatesAndMovesOn :
    statusFaulted (pointState true .accum 5 30).eng.status = false ∧
    statusFaulted (pointState true .accum 7 31).eng.status = false := by decide
theorem witness_NextuintKeepsTheDimension :
    statusFaulted (pointState true .accum 5 0).eng.status = false ∧ FrLegal (pointState true .accum 5 0).eng.fr ∧
    0 = (0#64).toNat % 2 ^ 32 ∧ 2048 = (2048#64).toNat % 2 ^ 32 ∧ 0 < 2048 ∧
    (pointState true .accum 5 0).eng.prod.toNat * (2048 - 0) ≤ 2048 := by
  unfold FrLegal
  decide +kernel
/-- `NextuintSpendsTheDimension` below dimension 31, at the least range that spends the budget. -/
theorem witness_NextuintSpendsTheDimension :
    statusFaulted (pointState true .accum 5 30).eng.status = false ∧ FrLegal (pointState true .accum 5 30).eng.fr ∧
    0 = (0#64).toNat % 2 ^ 32 ∧ 2049 = (2049#64).toNat % 2 ^ 32 ∧ 0 < 2049 ∧
    2048 < (pointState true .accum 5 30).eng.prod.toNat * (2049 - 0) ∧
    (pointState true .accum 5 30).eng.dim.toNat < 31 := by
  unfold FrLegal
  decide +kernel
/-- `NextuintSpendsTheDimension` at dimension 31; `Selectable` is that of the `NEXTVAL` witness. -/
theorem witness_NextuintSpendsTheDimension_wrap :
    FrLegal (pointState true .accum 7 31).eng.fr ∧
    2048 < (pointState true .accum 7 31).eng.prod.toNat * (2049 - 0) := by
  unfold FrLegal
  decide +kernel
/-- The greatest legal remainder and the greatest range. -/
theorem witness_BoundedDrawStaysInRange :
    FrLegal ({ exEngine true .accum with fr := 0x3FEFFFFFFFFFFFFF } : Engine).fr ∧ 0 < 2 ^ 32 - 1 ∧
    2 ^ 32 - 1 < 2 ^ 32 := by
  unfold FrLegal
  decide
theorem witness_RemainderIsTheExactFraction :
    FrLegal ({ exEngine true .accum with fr := 0x3FEFFFFFFFFFFFFF } : Engine).fr ∧ 1 ≤ 2 ^ 32 - 1 ∧
    2 ^ 32 - 1 < 2 ^ 32 := by
  unfold FrLegal
  decide
theorem witness_PowerOfTwoDrawsLoseNothing :
    FrLegal ({ exEngine true .accum with fr := 0x3FEFFFFFFFFFFFFF } : Engine).fr ∧ 31 < 32 := by
  unfold FrLegal
  decide
/-- Each clause and each arm of `InterpolationAtZero`. -/
theorem witness_InterpolationAtZero :
    f64IsNaN 0x8000000000000000 = false ∧ f64Exp 0 ≠ 2047 ∧ f64Neg 0 = false ∧ f64Exp 0x8000000000000000 ≠ 2047 ∧
    f64Neg 0x8000000000000000 = true ∧ f64IsNaN 0x7FF0000000000001 = true ∧ f64Exp 0x7FF0000000000000 = 2047 := by
  decide +kernel
theorem witness_InterpolationNaNIsCanonical :
    f64IsNaN 0xFFF0000000000001 = true ∧
    f64IsNaN (interpolate 0x7FF0000000000000 0xFFF0000000000000 0x3FE0000000000000) = true := by decide +kernel
theorem witness_RdregReadsTheEngineRegisters : statusFaulted exState.eng.status = false := by decide
theorem witness_RdregReadsAnyCacheEntry :
    statusFaulted exState.eng.status = false ∧ (31#64).toNat < 32 ∧ 32 ≤ (32#64).toNat := by decide
/-- The top index at dimension 31, a spending range, and the least operands that are out of range. -/
theorem witness_IndexRangeFaults :
    statusFaulted (pointState false .accum 0x7FFFFFFFFFFFFFFF 31).eng.status = false ∧
    2 ^ 63 ≤ (0x8000000000000000#64).toNat ∧
    (pointState false .accum 0x7FFFFFFFFFFFFFFF 31).eng.idx.toNat = 2 ^ 63 - 1 ∧
    (pointState false .accum 0x7FFFFFFFFFFFFFFF 31).eng.dim.toNat = 31 ∧
    FrLegal (pointState false .accum 0x7FFFFFFFFFFFFFFF 31).eng.fr ∧ (0#64).toNat % 2 ^ 32 < (2049#64).toNat % 2 ^ 32 ∧
    2048 < (pointState false .accum 0x7FFFFFFFFFFFFFFF 31).eng.prod.toNat *
      ((2049#64).toNat % 2 ^ 32 - (0#64).toNat % 2 ^ 32) := by
  unfold FrLegal
  decide +kernel
theorem witness_IndexRangeFaults_seed :
    statusFaulted ({ exState with params := ⟨exParams, 2 ^ 62, 2 ^ 31, .accum⟩ } : State).eng.status = false ∧
    2 ^ 63 ≤ ({ exState with params := ⟨exParams, 2 ^ 62, 2 ^ 31, .accum⟩ } : State).params.seedBase +
      (0x80000000#64).toNat % 2 ^ 32 *
        ({ exState with params := ⟨exParams, 2 ^ 62, 2 ^ 31, .accum⟩ } : State).params.seedStride := by
  decide +kernel
theorem witness_DimensionRangeFaults :
    statusFaulted exState.eng.status = false ∧ 32 ≤ (32#64).toNat ∧ 63 ≤ (63#64).toNat := by decide
theorem witness_EmptyRangeFaults :
    statusFaulted exState.eng.status = false ∧ (5#64).toNat % 2 ^ 32 ≤ (5#64).toNat % 2 ^ 32 := by decide
/-- `SETIDX` and `ADVIDX` of the first index whose dimension-0 sample is 1.0 (V-S4). -/
theorem witness_SampleOfOneFaults :
    statusFaulted (pointState true .accum 0x002AAAAAAAAAAAA9 0).eng.status = false ∧
    SequenceSound (pointState true .accum 0x002AAAAAAAAAAAA9 0).table (pointState true .accum 0x002AAAAAAAAAAAA9 0).eng ∧
    (0x002AAAAAAAAAAAAA#64).toNat < 2 ^ 63 ∧
    sampleLimit ≤ (directAcc exTable 0 (0x002AAAAAAAAAAAAA#64).toNat).toNat ∧
    (pointState true .accum 0x002AAAAAAAAAAAA9 0).eng.idx.toNat + 1 = 0x002AAAAAAAAAAAAA :=
  ⟨by decide, sound_at_point true .accum _ 0 (by decide) (by decide +kernel), by decide, by decide +kernel,
    by decide⟩
/-- The wrap to that index. -/
theorem witness_SampleOfOneFaults_wrap :
    SequenceSound (pointState true .accum 0x002AAAAAAAAAAAA9 31).table
      (pointState true .accum 0x002AAAAAAAAAAAA9 31).eng ∧
    (pointState true .accum 0x002AAAAAAAAAAAA9 31).eng.dim.toNat = 31 :=
  ⟨sound_at_point true .accum _ 31 (by decide) (by decide +kernel), by decide⟩
/-- An index whose dimension-1 sample is 1.0 while its dimension-0 sample is not. -/
theorem witness_SampleOfOneFaults_dim :
    SequenceSound (pointState true .accum 14355442858917939 0).table (pointState true .accum 14355442858917939 0).eng ∧
    (1#64).toNat < 32 ∧ (pointState true .accum 14355442858917939 0).eng.dim.toNat < 31 ∧
    sampleLimit ≤ (directAcc exTable 1 (pointState true .accum 14355442858917939 0).eng.idx.toNat).toNat :=
  ⟨sound_at_point true .accum _ 0 (by decide) (by decide +kernel), by decide, by decide, by decide +kernel⟩
/-- `SEEDDIMS` of the index of V-S4. -/
theorem witness_SampleOfOneFaults_seed :
    SequenceSound ({ exState with params := ⟨exParams, 0x002AAAAAAAAAAAAA, 7, .accum⟩ } : State).table exState.eng ∧
    0x002AAAAAAAAAAAAA = 0x002AAAAAAAAAAAAA + (0#64).toNat % 2 ^ 32 * 7 ∧ 0x002AAAAAAAAAAAAA < 2 ^ 63 ∧
    sampleLimit ≤ (directAcc exTable 0 0x002AAAAAAAAAAAAA).toNat :=
  ⟨sound_at_zero exTable true .accum, by decide, by decide, by decide +kernel⟩
/-- `NEXTUINT` at the least range that spends the budget, in the states of the two witnesses above it. -/
theorem witness_SampleOfOneFaults_draw :
    FrLegal (pointState true .accum 14355442858917939 0).eng.fr ∧
    FrLegal (pointState true .accum 0x002AAAAAAAAAAAA9 31).eng.fr ∧
    (0#64).toNat % 2 ^ 32 < (2049#64).toNat % 2 ^ 32 ∧
    2048 < (pointState true .accum 14355442858917939 0).eng.prod.toNat *
      ((2049#64).toNat % 2 ^ 32 - (0#64).toNat % 2 ^ 32) ∧
    2048 < (pointState true .accum 0x002AAAAAAAAAAAA9 31).eng.prod.toNat *
      ((2049#64).toNat % 2 ^ 32 - (0#64).toNat % 2 ^ 32) := by
  unfold FrLegal
  decide +kernel
/-- A fault after a wrap, with the code that `FaultsArePrecise` names. -/
theorem witness_FaultsArePrecise :
    ∃ t r, serve ⟨5, 0, 0⟩ (pointState false .accum 0x7FFFFFFFFFFFFFFF 31) = .next t ∧ t.eng.rsp = some r ∧
      r.err = true ∧ r.cause = 3 ∧ statusFaulted (pointState false .accum 0x7FFFFFFFFFFFFFFF 31).eng.status = false ∧
      FrLegal (pointState false .accum 0x7FFFFFFFFFFFFFFF 31).eng.fr :=
  ⟨_, ⟨true, 3, 0⟩, rfl, by decide +kernel, rfl, rfl, by decide, by unfold FrLegal; decide +kernel⟩
/-- The first action of a list, when it can happen, is not a reset that stands later. -/
theorem pick_command_not_reset {s : State} {c : Command} {l rest : List HostEvent}
    (h : actionReady s (.command 0 c) = true) : pick s (.command 0 c :: l) ≠ some (.reset, rest) := by
  simp [pick_ready h]
theorem witness_OnlyResetClearsStatus :
    ∃ t, step { haltedState with host := [.command 0 ⟨5, 0, 0⟩, .reset] } = .next t ∧
      haltedState.bstate ≠ .building ∧ (engines haltedState)[0]? = some haltedState.eng ∧
      statusFaulted haltedState.eng.status = true ∧
      statusWrap ({ exEngine true .accum with status := 5 } : Engine).status = true ∧
      ∀ rest, pick { haltedState with host := [.command 0 ⟨5, 0, 0⟩, .reset] } [.command 0 ⟨5, 0, 0⟩, .reset] ≠
        some (.reset, rest) :=
  ⟨_, rfl, by decide, rfl, by decide, by decide, fun _ => pick_command_not_reset rfl⟩
theorem witness_TableAndConfigurationAreImmutable :
    ∃ t, step { exState with host := [.command 0 ⟨2, 5, 0⟩, .reset] } = .next t ∧ exState.bstate ≠ .building ∧
      ∀ rest, pick { exState with host := [.command 0 ⟨2, 5, 0⟩, .reset] } [.command 0 ⟨2, 5, 0⟩, .reset] ≠
        some (.reset, rest) := ⟨_, rfl, by decide, fun _ => pick_command_not_reset rfl⟩
/-- A command to engine 1 while the list holds an action of engine 0 and a reset. -/
theorem witness_OtherEnginesAreUntouched :
    ∃ t, step { twoEngines with host := [.command 1 ⟨2, 5, 0⟩, .command 0 ⟨1, 0, 0⟩, .reset] } = .next t ∧
      twoEngines.bstate ≠ .building ∧ 0 ≠ 1 ∧
      pick { twoEngines with host := [.command 1 ⟨2, 5, 0⟩, .command 0 ⟨1, 0, 0⟩, .reset] }
        [.command 1 ⟨2, 5, 0⟩, .command 0 ⟨1, 0, 0⟩, .reset] =
          some (.command 1 ⟨2, 5, 0⟩, [.command 0 ⟨1, 0, 0⟩, .reset]) :=
  ⟨_, rfl, by decide, by decide, rfl⟩
theorem witness_CommandsOfDifferentEnginesCommute :
    twoEngines.bstate ≠ .building ∧ (engines twoEngines)[0]? = some (exEngine true .accum) ∧
    (engines twoEngines)[1]? = some (exEngine false .accum) ∧ (exEngine true .accum).rsp = none ∧
    (exEngine false .accum).rsp = none := ⟨by decide, rfl, rfl, rfl, rfl⟩
/-- A built block that is sound, and a step from it. -/
theorem witness_StepKeepsTheBlockSound :
    BlockSound exState ∧ ∃ t, step { exState with host := [.command 0 ⟨2, 5, 0⟩] } = .next t := by
  refine ⟨⟨⟨nofun, fun _ => ⟨test_exParams_valid, rfl⟩, nofun, ?_⟩, ?_⟩, _, rfl⟩
  · intro e he
    have : e = exEngine true .accum := by simpa [engines, exState, blockOf] using he
    subst this
    decide
  · intro e he
    have : e = exEngine true .accum := by simpa [engines, exState, blockOf] using he
    subst this
    exact ⟨by unfold StatusSound; decide, ⟨true, rfl⟩, sound_at_zero exTable true .accum⟩
theorem witness_StepKeepsTheExtractionSound : ExtractionSound exState := by
  intro e he
  have : e = exEngine true .accum := by simpa [engines, exState, blockOf] using he
  subst this
  unfold FrLegal ProdLegal
  decide

end Sys2Proof.Tests
end

/-! ## Binary64 rounding (spec/00_scope.md R12, spec/43_extraction.md R213)

A finite magnitude is `m * 2^e` units with `m < 2^53`. In units of `2^-2148` the rounding of `n` picks a point of the grid of
multiples of `2^sh`, where `sh` is the binade's shift. A finite magnitude off that grid lies in a lower binade, below a grid
point that is itself not above `n`. So being nearest on the grid is enough. -/
namespace Sys2Proof.Proofs.Rounding

open Sys2Proof Sys2Proof.Machine

/-- The distance of two natural numbers, spelt as the obligation spells it. -/
def distance (a n : Nat) : Nat := ((a : Int) - n).natAbs

/-- The shift of `rneBits` at `n`: rounding answers a multiple of `2 ^ binadeShift n` units of `2^-2148`. -/
def binadeShift (n : Nat) : Nat := max (n.log2 - 52) 1074

/-! ### Fields and magnitude of a pattern -/

theorem f64Exp_pack {b : Nat} (hb : b < 2 ^ 63) : f64Exp (f64Pack false b) = b / 2 ^ 52 := by
  simp only [f64Exp, f64Pack, BitVec.extractLsb'_toNat, BitVec.toNat_ofNat, Nat.shiftRight_eq_div_pow,
    Bool.false_eq_true, if_false]
  omega

theorem f64Frac_pack (b : Nat) : f64Frac (f64Pack false b) = b % 2 ^ 52 := by
  simp only [f64Frac, f64Pack, BitVec.extractLsb'_toNat, BitVec.toNat_ofNat, Nat.shiftRight_eq_div_pow,
    Bool.false_eq_true, if_false]
  omega

theorem f64Frac_lt (x : F64) : f64Frac x < 2 ^ 52 := (x.extractLsb' 0 52).isLt

theorem f64Mag_of_exp_zero {x : F64} (h : f64Exp x = 0) : f64Mag x = f64Frac x := by
  unfold f64Mag
  rw [if_pos h]

theorem f64Mag_of_exp_succ {x : F64} {e : Nat} (h : f64Exp x = e + 1) :
    f64Mag x = (2 ^ 52 + f64Frac x) * 2 ^ e := by
  unfold f64Mag
  rw [if_neg (by omega), h, Nat.add_sub_cancel, Nat.shiftLeft_eq]

/-- Every magnitude is a 53-bit significand times a power of two. -/
theorem f64Mag_eq_significand_mul (x : F64) : ∃ m e, f64Mag x = m * 2 ^ e ∧ m < 2 ^ 53 := by
  have hfrac := f64Frac_lt x
  rcases hexp : f64Exp x with _ | e
  · exact ⟨f64Frac x, 0, by rw [f64Mag_of_exp_zero hexp, Nat.pow_zero, Nat.mul_one], by omega⟩
  · exact ⟨2 ^ 52 + f64Frac x, e, f64Mag_of_exp_succ hexp, by omega⟩

/-- The magnitude of the pattern with exponent offset `e` and significand `m`; `m = 2^53` is the carry out of the fraction
into the exponent field. -/
theorem f64Mag_pack {e m : Nat} (hm : m ≤ 2 ^ 53) (hnormal : e = 0 ∨ 2 ^ 52 ≤ m)
    (hb : e * 2 ^ 52 + m < 2 ^ 63) : f64Mag (f64Pack false (e * 2 ^ 52 + m)) = m * 2 ^ e := by
  have hexp := f64Exp_pack hb
  have hfrac := f64Frac_pack (e * 2 ^ 52 + m)
  rcases Nat.lt_or_ge m (2 ^ 52) with hsub | hge
  · obtain rfl : e = 0 := by omega
    rw [f64Mag_of_exp_zero (by omega), Nat.pow_zero]
    omega
  · rcases Nat.lt_or_eq_of_le hm with hlt | rfl
    · rw [f64Mag_of_exp_succ (e := e) (by omega)]
      congr 1
      omega
    · have hzero : f64Frac (f64Pack false (e * 2 ^ 52 + 2 ^ 53)) = 0 := by omega
      rw [f64Mag_of_exp_succ (e := e + 1) (by omega), hzero]
      ring

/-! ### Rounding on one grid -/

/-- `roundShift` answers a multiple at most half a step away, and an even one at exactly half a step. -/
theorem roundShift_half_step (n s : Nat) :
    2 * distance (roundShift n (s + 1) * 2 ^ (s + 1)) n ≤ 2 ^ (s + 1) ∧
    (2 * distance (roundShift n (s + 1) * 2 ^ (s + 1)) n = 2 ^ (s + 1) → roundShift n (s + 1) % 2 = 0) := by
  have hdiv := Nat.div_add_mod' n (2 ^ (s + 1))
  have hrem := Nat.mod_lt n (Nat.two_pow_pos (s + 1))
  have hhalf : 2 ^ (s + 1) = 2 * 2 ^ s := by rw [Nat.pow_succ, Nat.mul_comm]
  simp only [roundShift, distance, Nat.shiftRight_eq_div_pow, Nat.add_sub_cancel]
  split
  case isTrue hup =>
    rw [Nat.succ_mul (n / _)]
    omega
  case isFalse hdown => omega

/-- No multiple of the step is nearer, and a tie goes to an even one. -/
theorem roundShift_nearest (n s k : Nat) :
    distance (roundShift n (s + 1) * 2 ^ (s + 1)) n ≤ distance (k * 2 ^ (s + 1)) n ∧
    (distance (roundShift n (s + 1) * 2 ^ (s + 1)) n = distance (k * 2 ^ (s + 1)) n →
      k ≠ roundShift n (s + 1) → roundShift n (s + 1) % 2 = 0) := by
  obtain ⟨hle, heven⟩ := roundShift_half_step n s
  generalize roundShift n (s + 1) = q at *
  generalize 2 ^ (s + 1) = step at *
  unfold distance at *
  rcases Nat.lt_trichotomy k q with hlt | rfl | hgt
  · have := Nat.mul_le_mul_right step hlt
    rw [Nat.succ_mul] at this
    omega
  · exact ⟨Nat.le_refl _, fun _ hne => absurd rfl hne⟩
  · have := Nat.mul_le_mul_right step hgt
    rw [Nat.succ_mul] at this
    omega

/-- Rounding reaches an even number from the middle below it on. -/
theorem even_le_roundShift_iff {n s k : Nat} (hk : 0 < k) (heven : k % 2 = 0) :
    k ≤ roundShift n (s + 1) ↔ (2 * k - 1) * 2 ^ s ≤ n := by
  obtain ⟨hle, htie⟩ := roundShift_half_step n s
  have hmid : (2 * k - 1) * 2 ^ s + 2 ^ s = k * 2 ^ (s + 1) := by
    rw [← Nat.succ_mul, Nat.pow_succ, show (2 * k - 1).succ = k * 2 by omega]
    ring
  generalize roundShift n (s + 1) = q at *
  rw [Nat.pow_succ] at *
  have hpos := Nat.two_pow_pos s
  unfold distance at *
  constructor
  · intro hkq
    have := Nat.mul_le_mul_right (2 ^ s * 2) hkq
    omega
  · intro hn
    by_contra hlt
    have := Nat.mul_le_mul_right (2 ^ s * 2) (Nat.lt_of_not_le hlt)
    rw [Nat.succ_mul] at this
    have hq : q + 1 = k := by
      by_contra hne
      have := Nat.mul_le_mul_right (2 ^ s * 2) (show q + 1 + 1 ≤ k by omega)
      simp only [Nat.succ_mul] at this
      omega
    omega

/-! ### The binade of a number -/

theorem binadeShift_ge (n : Nat) : 1074 ≤ binadeShift n := Nat.le_max_right _ _

/-- A number lies below the end of its binade. -/
theorem lt_binade_end (n : Nat) : n < 2 ^ (binadeShift n + 53) :=
  calc n < 2 ^ (n.log2 + 1) := Nat.lt_log2_self
    _ ≤ 2 ^ (binadeShift n + 53) := Nat.pow_le_pow_right (by decide) (by unfold binadeShift; omega)

/-- Above the subnormal grid a number lies at or above the start of its binade. -/
theorem binade_start_le {n : Nat} (h : 1074 < binadeShift n) : 2 ^ (binadeShift n + 52) ≤ n := by
  unfold binadeShift at *
  rw [show max (n.log2 - 52) 1074 + 52 = n.log2 by omega]
  exact Nat.log2_self_le (by rintro rfl; simp at h)

theorem binadeShift_eq_succ (n : Nat) : ∃ s, binadeShift n = s + 1 :=
  Nat.exists_eq_succ_of_ne_zero (Nat.ne_of_gt (Nat.lt_of_lt_of_le (by decide) (binadeShift_ge n)))

/-- The rounded significand has at most 53 bits, or is the carry `2^53`. -/
theorem roundShift_binade_le (n : Nat) : roundShift n (binadeShift n) ≤ 2 ^ 53 := by
  have hlt : n / 2 ^ binadeShift n < 2 ^ 53 :=
    Nat.div_lt_of_lt_mul (by rw [← Nat.pow_add]; exact lt_binade_end n)
  simp only [roundShift, Nat.shiftRight_eq_div_pow]
  split <;> omega

/-- Above the subnormal grid the rounded significand has its leading bit. -/
theorem le_roundShift_binade {n : Nat} (h : 1074 < binadeShift n) : 2 ^ 52 ≤ roundShift n (binadeShift n) := by
  have hge : 2 ^ 52 ≤ n / 2 ^ binadeShift n := by
    rw [Nat.le_div_iff_mul_le (Nat.two_pow_pos _), ← Nat.pow_add, Nat.add_comm]
    exact binade_start_le h
  simp only [roundShift, Nat.shiftRight_eq_div_pow]
  split <;> omega

/-! ### The rounded pattern -/

theorem rneBits_eq (n : Nat) :
    rneBits n = min ((binadeShift n - 1074) * 2 ^ 52 + roundShift n (binadeShift n)) 0x7FF0000000000000 := by
  unfold rneBits
  rfl

theorem rneBits_of_finite {n : Nat} (h : rneBits n < 0x7FF0000000000000) :
    rneBits n = (binadeShift n - 1074) * 2 ^ 52 + roundShift n (binadeShift n) := by
  have := rneBits_eq n
  omega

theorem rneBits_mod_two_of_finite {n : Nat} (h : rneBits n < 0x7FF0000000000000) :
    rneBits n % 2 = roundShift n (binadeShift n) % 2 := by
  have := rneBits_of_finite h
  omega

/-- A finite rounded value is the grid point that `roundShift` picks. -/
theorem f64Mag_pack_rneBits {n : Nat} (h : rneBits n < 0x7FF0000000000000) :
    f64Mag (f64Pack false (rneBits n)) = roundShift n (binadeShift n) * 2 ^ (binadeShift n - 1074) := by
  have hbits := rneBits_of_finite h
  rw [hbits]
  refine f64Mag_pack (roundShift_binade_le n) ?_ (by omega)
  rcases Nat.eq_or_lt_of_le (binadeShift_ge n) with hsub | hnormal
  · exact .inl (by omega)
  · exact .inr (le_roundShift_binade hnormal)

/-- A grid point as a magnitude, turned into units of `2^-2148`. -/
theorem grid_units (n k : Nat) :
    k * 2 ^ (binadeShift n - 1074) * 2 ^ 1074 = k * 2 ^ binadeShift n := by
  rw [Nat.mul_assoc, ← Nat.pow_add, Nat.sub_add_cancel (binadeShift_ge n)]

/-- A magnitude is a point of the grid at `n`, or some grid point is strictly nearer to `n`. -/
theorem on_grid_or_grid_nearer (n : Nat) (y : F64) :
    ∃ k, f64Mag y = k * 2 ^ (binadeShift n - 1074) ∨
      distance (k * 2 ^ binadeShift n) n < distance (f64Mag y * 2 ^ 1074) n := by
  obtain ⟨m, e, hmag, hm⟩ := f64Mag_eq_significand_mul y
  rcases Nat.lt_or_ge e (binadeShift n - 1074) with hlow | hhigh
  · refine ⟨2 ^ 52, .inr ?_⟩
    have hstart := binade_start_le (n := n) (by omega)
    have hbelow : f64Mag y * 2 ^ 1074 < 2 ^ (binadeShift n + 52) :=
      calc f64Mag y * 2 ^ 1074 = m * 2 ^ (e + 1074) := by rw [hmag, Nat.mul_assoc, ← Nat.pow_add]
        _ < 2 ^ 53 * 2 ^ (e + 1074) := Nat.mul_lt_mul_of_pos_right hm (Nat.two_pow_pos _)
        _ = 2 ^ (53 + (e + 1074)) := (Nat.pow_add ..).symm
        _ ≤ 2 ^ (binadeShift n + 52) := Nat.pow_le_pow_right (by decide) (by omega)
    rw [← Nat.pow_add, Nat.add_comm 52]
    generalize f64Mag y * 2 ^ 1074 = v at *
    generalize 2 ^ (binadeShift n + 52) = start at *
    unfold distance
    omega
  · refine ⟨m * 2 ^ (e - (binadeShift n - 1074)), .inl ?_⟩
    rw [hmag, Nat.mul_assoc, ← Nat.pow_add, Nat.sub_add_cancel hhigh]

/-- No finite magnitude is nearer than the rounded value, and a tie goes to an even significand. -/
theorem rneBits_nearest {n : Nat} (y : F64) (h : rneBits n < 0x7FF0000000000000) :
    distance (f64Mag (f64Pack false (rneBits n)) * 2 ^ 1074) n ≤ distance (f64Mag y * 2 ^ 1074) n ∧
    (distance (f64Mag (f64Pack false (rneBits n)) * 2 ^ 1074) n = distance (f64Mag y * 2 ^ 1074) n →
      f64Mag y ≠ f64Mag (f64Pack false (rneBits n)) → rneBits n % 2 = 0) := by
  rw [f64Mag_pack_rneBits h, rneBits_mod_two_of_finite h, grid_units]
  obtain ⟨s, hs⟩ := binadeShift_eq_succ n
  obtain ⟨k, hgrid | hnearer⟩ := on_grid_or_grid_nearer n y
  · obtain ⟨hle, htie⟩ := roundShift_nearest n s k
    rw [← hs] at hle htie
    rw [hgrid, grid_units]
    exact ⟨hle, fun heq hne => htie heq fun hk => hne (by rw [hk])⟩
  · have hle := (roundShift_nearest n s k).1
    rw [← hs] at hle
    exact ⟨Nat.le_of_lt (Nat.lt_of_le_of_lt hle hnearer),
      fun heq => absurd heq (Nat.ne_of_lt (Nat.lt_of_le_of_lt hle hnearer))⟩

/-- The unbounded pattern reaches the binade after that of the shift `s + 1` from the middle below its start on: from a
lower binade never, in that binade from where the significand carries, from a higher one always. -/
theorem next_binade_le_pattern_iff {n s : Nat} (hs : 1074 ≤ s) :
    (s + 3 - 1074) * 2 ^ 52 ≤ (binadeShift n - 1074) * 2 ^ 52 + roundShift n (binadeShift n) ↔
      (2 ^ 54 - 1) * 2 ^ s ≤ n := by
  have hcarry := roundShift_binade_le n
  rcases Nat.lt_trichotomy (binadeShift n) (s + 1) with hlow | hsame | hhigh
  · have hlt : n < (2 ^ 54 - 1) * 2 ^ s :=
      calc n < 2 ^ (binadeShift n + 53) := lt_binade_end n
        _ ≤ 2 ^ (53 + s) := Nat.pow_le_pow_right (by decide) (by omega)
        _ = 2 ^ 53 * 2 ^ s := Nat.pow_add ..
        _ ≤ (2 ^ 54 - 1) * 2 ^ s := Nat.mul_le_mul_right _ (by decide)
    exact iff_of_false (by omega) (Nat.not_le_of_lt hlt)
  · have hreach : 2 ^ 53 ≤ roundShift n (s + 1) ↔ (2 ^ 54 - 1) * 2 ^ s ≤ n :=
      even_le_roundShift_iff (by decide) (by decide)
    rw [← hreach, hsame]
    omega
  · have hsignificand := le_roundShift_binade (n := n) (by omega)
    have hge : (2 ^ 54 - 1) * 2 ^ s ≤ n :=
      calc (2 ^ 54 - 1) * 2 ^ s ≤ 2 ^ 54 * 2 ^ s := Nat.mul_le_mul_right _ (by decide)
        _ = 2 ^ (54 + s) := (Nat.pow_add ..).symm
        _ ≤ 2 ^ (binadeShift n + 52) := Nat.pow_le_pow_right (by decide) (by omega)
        _ ≤ n := binade_start_le (by omega)
    exact iff_of_true (by omega) hge

/-- Infinity is answered from the middle between the greatest finite value and `2^1024` on. -/
theorem rneBits_infinite_iff (n : Nat) :
    rneBits n = 0x7FF0000000000000 ↔ (2 ^ 54 - 1) * 2 ^ 3118 ≤ n := by
  rw [← next_binade_le_pattern_iff (by decide), rneBits_eq]
  omega

/-- Settles O27: the grid point nearest to `n` beats every finite magnitude, and the overflow threshold is where the last
binade carries. -/
theorem roundingIsNearestTiesToEven : Obligations.RoundingIsNearestTiesToEven := by
  refine ⟨fun n y hfinite _ => ?_, fun n => ⟨?_, rneBits_infinite_iff n⟩⟩
  · have hnearest := rneBits_nearest y hfinite
    simpa only [distance, Nat.cast_mul, Nat.cast_pow, Nat.cast_ofNat] using hnearest
  · rw [rneBits_eq]
    exact Nat.min_le_right _ _

end Sys2Proof.Proofs.Rounding

/-! ## The extraction registers (spec/10_state.md R27, spec/43_extraction.md R202, R203)

`FR` is a non-negative pattern with a magnitude below 1.0. Numbers with a 53-bit significand round to themselves: the range
of a draw, its integer part, and the fraction that is left, since taking the integer part off leaves a significand no longer. -/
namespace Sys2Proof.Proofs.UnitInterval

open Sys2Proof Sys2Proof.Machine Sys2Proof.Proofs.Rounding

/-! ### Powers of two

Stated for a variable exponent, so that no use of them evaluates a power such as `2^1074`. -/

theorem two_pow_pos (k : Nat) : 0 < 2 ^ k := Nat.two_pow_pos k

theorem two_pow_le {a b : Nat} (h : a ≤ b) : 2 ^ a ≤ 2 ^ b := Nat.pow_le_pow_right (by decide) h

theorem two_pow_add (a b : Nat) : 2 ^ (a + b) = 2 ^ a * 2 ^ b := pow_add 2 a b

theorem two_pow_dvd {a b : Nat} (h : a ≤ b) : 2 ^ a ∣ 2 ^ b := pow_dvd_pow 2 h

theorem shiftRight_eq_div (n k : Nat) : n >>> k = n / 2 ^ k := Nat.shiftRight_eq_div_pow n k

/-! ### Non-negative patterns -/

theorem toNat_f64Pack {b : Nat} (hb : b < 2 ^ 63) : (f64Pack false b).toNat = b := by
  simp only [f64Pack, Bool.false_eq_true, if_false, BitVec.toNat_ofNat]
  omega

theorem f64Pack_toNat (x : F64) : f64Pack false x.toNat = x := by
  simp [f64Pack]

theorem f64Neg_eq_false_iff (x : F64) : f64Neg x = false ↔ x.toNat < 2 ^ 63 := by
  have := BitVec.msb_eq_false_iff_two_mul_lt (x := x)
  rw [BitVec.msb_eq_getLsbD_last] at this
  unfold f64Neg
  rw [this]
  omega

/-- Patterns below 1.0 are those with a magnitude below 1.0. -/
theorem f64Mag_pack_lt_one_iff {b : Nat} (hb : b < 2 ^ 63) :
    f64Mag (f64Pack false b) < 2 ^ 1074 ↔ b < f64One.toNat := by
  have hexp := f64Exp_pack hb
  have hfrac := f64Frac_lt (f64Pack false b)
  rw [show f64One.toNat = 1023 * 2 ^ 52 from rfl]
  rcases he : b / 2 ^ 52 with _ | e
  · rw [f64Mag_of_exp_zero (hexp.trans he)]
    refine iff_of_true (Nat.lt_of_lt_of_le hfrac ?_) (by omega)
    exact two_pow_le (by decide)
  · rw [f64Mag_of_exp_succ (hexp.trans he)]
    rcases Nat.lt_or_ge e 1022 with hlow | hhigh
    · refine iff_of_true ?_ (by omega)
      calc _ < 2 ^ 53 * 2 ^ e := Nat.mul_lt_mul_of_pos_right (by omega) (two_pow_pos e)
        _ = 2 ^ (53 + e) := by rw [← two_pow_add]
        _ ≤ 2 ^ 1074 := two_pow_le (by omega)
    · refine iff_of_false (Nat.not_lt_of_ge ?_) (by omega)
      calc 2 ^ 1074 ≤ 2 ^ (52 + e) := two_pow_le (by omega)
        _ = 2 ^ 52 * 2 ^ e := two_pow_add ..
        _ ≤ _ := Nat.mul_le_mul_right _ (Nat.le_add_right ..)

theorem frLegal_iff (x : F64) : FrLegal x ↔ f64Neg x = false ∧ f64Mag x < 2 ^ 1074 := by
  unfold FrLegal
  rw [f64Neg_eq_false_iff]
  have hone : f64One.toNat < 2 ^ 63 := by decide
  constructor
  · intro h
    have hb := Nat.lt_trans h hone
    exact ⟨hb, by rw [← f64Pack_toNat x]; exact (f64Mag_pack_lt_one_iff hb).2 h⟩
  · rintro ⟨hb, hmag⟩
    exact (f64Mag_pack_lt_one_iff hb).1 (by rwa [f64Pack_toNat])

/-! ### Rounded values -/

theorem rneBits_lt (n : Nat) : rneBits n < 2 ^ 63 := by
  have := rneBits_eq n
  omega

theorem f64Neg_pack_rneBits (n : Nat) : f64Neg (f64Pack false (rneBits n)) = false := by
  rw [f64Neg_eq_false_iff, toNat_f64Pack (rneBits_lt n)]
  exact rneBits_lt n

/-- Everything below `2^2181`, hence every product of a remainder and a 32-bit range, rounds to a finite value. -/
theorem rneBits_finite {n : Nat} (h : n < 2 ^ 2181) : rneBits n < 0x7FF0000000000000 := by
  refine Nat.lt_of_le_of_ne (by rw [rneBits_eq]; exact Nat.min_le_right ..) fun hinf => ?_
  have hthreshold := (rneBits_infinite_iff n).1 hinf
  have hbig : 2 ^ 2181 ≤ (2 ^ 54 - 1) * 2 ^ 3118 :=
    calc 2 ^ 2181 ≤ 1 * 2 ^ 3118 := by rw [Nat.one_mul]; exact two_pow_le (by decide)
      _ ≤ _ := Nat.mul_le_mul_right _ (by decide)
  exact absurd h (Nat.not_lt_of_ge (Nat.le_trans hbig hthreshold))

theorem f64Exp_lt_of_finite {b : Nat} (h : b < 0x7FF0000000000000) : f64Exp (f64Pack false b) < 2047 := by
  rw [f64Exp_pack (by omega)]
  omega

theorem not_nan_of_exp_lt {x : F64} (h : f64Exp x < 2047) : f64IsNaN x = false := by
  simp [f64IsNaN, Nat.ne_of_lt h]

theorem not_inf_of_exp_lt {x : F64} (h : f64Exp x < 2047) : f64IsInf x = false := by
  simp [f64IsInf, Nat.ne_of_lt h]

theorem f64Exp_lt_of_frLegal {x : F64} (h : FrLegal x) : f64Exp x < 2047 := by
  have hx : x.toNat < f64One.toNat := h
  rw [← f64Pack_toNat x]
  exact f64Exp_lt_of_finite (Nat.lt_trans hx (by decide))

/-- A number on its own grid is not changed by rounding. -/
theorem f64Mag_pack_rneBits_exact {n : Nat} (h : n < 2 ^ 2181) (hgrid : 2 ^ binadeShift n ∣ n) :
    f64Mag (f64Pack false (rneBits n)) * 2 ^ 1074 = n := by
  rw [f64Mag_pack_rneBits (rneBits_finite h), grid_units]
  have hround : roundShift n (binadeShift n) = n / 2 ^ binadeShift n := by
    have hhalf := two_pow_pos (binadeShift n - 1)
    simp only [roundShift, shiftRight_eq_div, Nat.mod_eq_zero_of_dvd hgrid]
    rw [if_neg (by omega)]
  rw [hround, Nat.div_mul_cancel hgrid]

/-- A 53-bit significand, scaled by at least one unit of `2^-1074`, is on its own grid. -/
theorem two_pow_binadeShift_dvd {m e : Nat} (hm : m < 2 ^ 53) :
    2 ^ binadeShift (m * 2 ^ (e + 1074)) ∣ m * 2 ^ (e + 1074) := by
  refine Nat.dvd_trans (two_pow_dvd ?_) (Nat.dvd_mul_left ..)
  rcases Nat.eq_zero_or_pos m with rfl | hpos
  · rw [Nat.zero_mul, binadeShift, Nat.log2_zero]
    omega
  · have hlog : (m * 2 ^ (e + 1074)).log2 < 53 + (e + 1074) := by
      rw [Nat.log2_lt (Nat.ne_of_gt (Nat.mul_pos hpos (two_pow_pos _))), two_pow_add 53]
      exact Nat.mul_lt_mul_of_pos_right hm (two_pow_pos _)
    unfold binadeShift
    omega

/-- A finite value `z = m * 2^e` rounds to itself. -/
theorem f64Mag_pack_rneBits_significand {z m e : Nat} (hz : z = m * 2 ^ e) (hm : m < 2 ^ 53)
    (hlt : z * 2 ^ 1074 < 2 ^ 2181) : f64Mag (f64Pack false (rneBits (z * 2 ^ 1074))) = z := by
  have hscale : z * 2 ^ 1074 = m * 2 ^ (e + 1074) := by rw [hz, Nat.mul_assoc, ← two_pow_add]
  refine Nat.eq_of_mul_eq_mul_right (two_pow_pos _) (f64Mag_pack_rneBits_exact hlt ?_)
  rw [hscale]
  exact two_pow_binadeShift_dvd hm

/-- A bound of a number, well above the subnormal grid, is one of its rounded value. -/
theorem f64Mag_pack_rneBits_le {n k : Nat} (hk : 1127 ≤ k) (hn : n < 2 ^ k) (hfin : n < 2 ^ 2181) :
    f64Mag (f64Pack false (rneBits n)) ≤ 2 ^ (k - 1074) := by
  have hbinade : binadeShift n + 53 ≤ k := by
    by_contra hgt
    have := binade_start_le (n := n) (by omega)
    exact absurd hn (Nat.not_lt_of_ge (Nat.le_trans (two_pow_le (by omega)) this))
  rw [f64Mag_pack_rneBits (rneBits_finite hfin)]
  calc _ ≤ 2 ^ 53 * 2 ^ (binadeShift n - 1074) := Nat.mul_le_mul_right _ (roundShift_binade_le n)
    _ = 2 ^ (53 + (binadeShift n - 1074)) := by rw [← two_pow_add]
    _ ≤ 2 ^ (k - 1074) := two_pow_le (by have := binadeShift_ge n; omega)

/-! ### The range and the product of a draw -/

theorem toF64_eq (r : Nat) : toF64 r = f64Pack false (rneBits (r * 2 ^ 1074 * 2 ^ 1074)) := by
  unfold toF64
  rw [Nat.mul_assoc, ← two_pow_add]

theorem range_units_lt {r : Nat} (hr : r ≤ 2 ^ 32) : r * 2 ^ 1074 * 2 ^ 1074 < 2 ^ 2181 := by
  rw [Nat.mul_assoc, ← two_pow_add]
  calc r * 2 ^ (1074 + 1074) < 2 ^ 33 * 2 ^ (1074 + 1074) := Nat.mul_lt_mul_of_pos_right (by omega) (two_pow_pos _)
    _ = 2 ^ 2181 := by rw [← two_pow_add]

theorem f64Neg_toF64 (r : Nat) : f64Neg (toF64 r) = false := by
  rw [toF64_eq]
  exact f64Neg_pack_rneBits _

theorem f64Exp_toF64_lt {r : Nat} (hr : r ≤ 2 ^ 32) : f64Exp (toF64 r) < 2047 := by
  rw [toF64_eq]
  exact f64Exp_lt_of_finite (rneBits_finite (range_units_lt hr))

/-- The conversion of an integer up to `2^32` is exact (R202). -/
theorem f64Mag_toF64 {r : Nat} (hr : r ≤ 2 ^ 32) : f64Mag (toF64 r) = r * 2 ^ 1074 := by
  rw [toF64_eq]
  exact f64Mag_pack_rneBits_significand rfl (by omega) (range_units_lt hr)

theorem f64Floor_eq (x : F64) : f64Floor x = f64Mag x / 2 ^ 1074 := by
  unfold f64Floor
  exact shiftRight_eq_div ..

theorem fmul_of_finite {x y : F64} (hx : f64Exp x < 2047) (hy : f64Exp y < 2047) :
    fmul x y = f64Pack (f64Neg x != f64Neg y) (rneBits (f64Mag x * f64Mag y)) := by
  unfold fmul
  simp [not_nan_of_exp_lt, not_inf_of_exp_lt, hx, hy]

section draw

variable {fr : F64} {r : Nat}

/-- The product of a draw is the exact product, rounded once. -/
theorem drawProduct_eq (hfr : FrLegal fr) (hr : r ≤ 2 ^ 32) :
    drawProduct fr r = f64Pack false (rneBits (f64Mag fr * (r * 2 ^ 1074))) := by
  obtain ⟨hneg, -⟩ := (frLegal_iff fr).1 hfr
  unfold drawProduct
  rw [fmul_of_finite (f64Exp_lt_of_frLegal hfr) (f64Exp_toF64_lt hr), hneg, f64Neg_toF64, f64Mag_toF64 hr]
  rfl

theorem draw_units_lt (hfr : FrLegal fr) (hr : r ≤ 2 ^ 32) : f64Mag fr * (r * 2 ^ 1074) < 2 ^ 2180 := by
  obtain ⟨-, hmag⟩ := (frLegal_iff fr).1 hfr
  calc f64Mag fr * (r * 2 ^ 1074) ≤ f64Mag fr * (2 ^ 32 * 2 ^ 1074) :=
        Nat.mul_le_mul_left _ (Nat.mul_le_mul_right _ hr)
    _ = f64Mag fr * 2 ^ 1106 := by rw [← two_pow_add]
    _ < 2 ^ 1074 * 2 ^ 1106 := Nat.mul_lt_mul_of_pos_right hmag (two_pow_pos _)
    _ = 2 ^ 2180 := by rw [← two_pow_add]

theorem f64Neg_drawProduct (hfr : FrLegal fr) (hr : r ≤ 2 ^ 32) : f64Neg (drawProduct fr r) = false := by
  rw [drawProduct_eq hfr hr]
  exact f64Neg_pack_rneBits _

theorem f64Exp_drawProduct_lt (hfr : FrLegal fr) (hr : r ≤ 2 ^ 32) : f64Exp (drawProduct fr r) < 2047 := by
  rw [drawProduct_eq hfr hr]
  exact f64Exp_lt_of_finite
    (rneBits_finite (Nat.lt_of_lt_of_le (draw_units_lt hfr hr) (two_pow_le (by decide))))

/-- The integer part of a draw is small enough to be converted exactly. -/
theorem f64Floor_drawProduct_le (hfr : FrLegal fr) (hr : r ≤ 2 ^ 32) :
    f64Floor (drawProduct fr r) ≤ 2 ^ 32 := by
  have hunits := draw_units_lt hfr hr
  have hmag := f64Mag_pack_rneBits_le (by decide) hunits (Nat.lt_of_lt_of_le hunits (two_pow_le (by decide)))
  rw [← drawProduct_eq hfr hr] at hmag
  rw [f64Floor_eq]
  refine Nat.div_le_of_le_mul ?_
  rw [← two_pow_add]
  exact Nat.le_trans hmag (two_pow_le (by decide))

end draw

/-! ### The fraction that a draw leaves -/

theorem f64Exp_fneg (x : F64) : f64Exp (fneg x) = f64Exp x := by
  have h : (0x8000000000000000#64).extractLsb' 52 11 = 0#11 := by decide
  simp [f64Exp, fneg, BitVec.extractLsb'_xor, h]

theorem f64Frac_fneg (x : F64) : f64Frac (fneg x) = f64Frac x := by
  have h : (0x8000000000000000#64).extractLsb' 0 52 = 0#52 := by decide
  simp [f64Frac, fneg, BitVec.extractLsb'_xor, h]

theorem f64Neg_fneg (x : F64) : f64Neg (fneg x) = !f64Neg x := by
  simp [f64Neg, fneg]

theorem f64Mag_fneg (x : F64) : f64Mag (fneg x) = f64Mag x := by
  rcases hexp : f64Exp x with _ | e
  · rw [f64Mag_of_exp_zero hexp, f64Mag_of_exp_zero ((f64Exp_fneg x).trans hexp), f64Frac_fneg]
  · rw [f64Mag_of_exp_succ hexp, f64Mag_of_exp_succ ((f64Exp_fneg x).trans hexp), f64Frac_fneg]

theorem fadd_of_finite {x y : F64} (hx : f64Exp x < 2047) (hy : f64Exp y < 2047) :
    fadd x y = if f64Val x + f64Val y = 0 then f64Pack (f64Neg x && f64Neg y) 0
      else f64Pack (decide (f64Val x + f64Val y < 0)) (rneBits ((f64Val x + f64Val y).natAbs * 2 ^ 1074)) := by
  unfold fadd
  simp only [not_nan_of_exp_lt hx, not_nan_of_exp_lt hy, not_inf_of_exp_lt hx, not_inf_of_exp_lt hy,
    Bool.false_eq_true, or_self, if_false]

theorem rneBits_zero : rneBits 0 = 0 := by
  have hshift : binadeShift 0 = 1074 := by
    rw [binadeShift, Nat.log2_zero]
    rfl
  have hround : roundShift 0 1074 = 0 := by
    simp only [roundShift, Nat.zero_shiftRight, Nat.zero_mod]
    rw [if_neg (by omega)]
  rw [rneBits_eq, hshift, hround]
  rfl

/-- The difference of two non-negative finite values, rounded once; equal values give `+0.0`. -/
theorem fsub_of_le {x y : F64} (hx : f64Exp x < 2047) (hy : f64Exp y < 2047) (hxneg : f64Neg x = false)
    (hyneg : f64Neg y = false) (hle : f64Mag y ≤ f64Mag x) :
    fsub x y = f64Pack false (rneBits ((f64Mag x - f64Mag y) * 2 ^ 1074)) := by
  have hz : f64Val x + f64Val (fneg y) = ((f64Mag x - f64Mag y : Nat) : Int) := by
    simp only [f64Val, f64Neg_fneg, f64Mag_fneg, hxneg, hyneg, Bool.not_false, if_true, Bool.false_eq_true, if_false]
    omega
  rw [fsub, fadd_of_finite hx ((f64Exp_fneg y).trans_lt hy), hz]
  generalize f64Mag x - f64Mag y = z
  rcases Nat.eq_zero_or_pos z with rfl | hpos
  · rw [Int.natCast_zero, if_pos rfl, hxneg, Bool.false_and, Nat.zero_mul, rneBits_zero]
  · rw [if_neg (by omega), decide_eq_false (by omega), Int.natAbs_natCast]

/-- The fraction of a magnitude has a significand no longer than the magnitude's. -/
theorem f64Mag_mod_eq_significand_mul (x : F64) : ∃ m e, f64Mag x % 2 ^ 1074 = m * 2 ^ e ∧ m < 2 ^ 53 := by
  obtain ⟨m, e, hmag, hm⟩ := f64Mag_eq_significand_mul x
  rcases Nat.lt_or_ge e 1074 with hlow | hhigh
  · refine ⟨m % 2 ^ (1074 - e), e, ?_, Nat.lt_of_le_of_lt (Nat.mod_le ..) hm⟩
    rw [hmag, ← Nat.mul_mod_mul_right, ← two_pow_add, Nat.sub_add_cancel (Nat.le_of_lt hlow)]
  · refine ⟨0, 0, ?_, by decide⟩
    rw [hmag, Nat.zero_mul]
    exact Nat.mod_eq_zero_of_dvd (Nat.dvd_trans (two_pow_dvd hhigh) (Nat.dvd_mul_left ..))

/-- Taking the integer part off leaves exactly the fraction. -/
theorem fsub_toF64_floor {x : F64} (hneg : f64Neg x = false) (hexp : f64Exp x < 2047)
    (hfloor : f64Floor x ≤ 2 ^ 32) :
    fsub x (toF64 (f64Floor x)) = f64Pack false (rneBits (f64Mag x % 2 ^ 1074 * 2 ^ 1074)) := by
  have hv := f64Floor_eq x
  have hdiv := Nat.div_add_mod' (f64Mag x) (2 ^ 1074)
  have hmag := f64Mag_toF64 hfloor
  rw [hv] at hmag
  rw [fsub_of_le hexp (f64Exp_toF64_lt hfloor) hneg (f64Neg_toF64 _) (by rw [hv, hmag]; omega), hv, hmag]
  rw [show f64Mag x - f64Mag x / 2 ^ 1074 * 2 ^ 1074 = f64Mag x % 2 ^ 1074 by omega]

theorem f64Mag_fsub_toF64_floor {x : F64} (hneg : f64Neg x = false) (hexp : f64Exp x < 2047)
    (hfloor : f64Floor x ≤ 2 ^ 32) : f64Mag (fsub x (toF64 (f64Floor x))) = f64Mag x % 2 ^ 1074 := by
  obtain ⟨m, e, hz, hm⟩ := f64Mag_mod_eq_significand_mul x
  rw [fsub_toF64_floor hneg hexp hfloor]
  refine f64Mag_pack_rneBits_significand hz hm ?_
  calc f64Mag x % 2 ^ 1074 * 2 ^ 1074 < 2 ^ 1074 * 2 ^ 1074 :=
        Nat.mul_lt_mul_of_pos_right (Nat.mod_lt _ (two_pow_pos _)) (two_pow_pos _)
    _ = 2 ^ 2148 := by rw [← two_pow_add]
    _ ≤ 2 ^ 2181 := two_pow_le (by decide)

/-- What a draw leaves is a legal `FR`. -/
theorem frLegal_fsub_toF64_floor {x : F64} (hneg : f64Neg x = false) (hexp : f64Exp x < 2047)
    (hfloor : f64Floor x ≤ 2 ^ 32) : FrLegal (fsub x (toF64 (f64Floor x))) := by
  refine (frLegal_iff _).2 ⟨?_, ?_⟩
  · rw [fsub_toF64_floor hneg hexp hfloor]
    exact f64Neg_pack_rneBits _
  · rw [f64Mag_fsub_toF64_floor hneg hexp hfloor]
    exact Nat.mod_lt _ (two_pow_pos _)

theorem frLegal_draw_remainder {fr : F64} {r : Nat} (hfr : FrLegal fr) (hr : r ≤ 2 ^ 32) :
    FrLegal (fsub (drawProduct fr r) (toF64 (f64Floor (drawProduct fr r)))) :=
  frLegal_fsub_toF64_floor (f64Neg_drawProduct hfr hr) (f64Exp_drawProduct_lt hfr hr)
    (f64Floor_drawProduct_le hfr hr)

/-- Settles O42: the range and the integer part convert exactly, and the fraction keeps a 53-bit significand. -/
theorem remainderIsTheExactFraction : Obligations.RemainderIsTheExactFraction := by
  intro e r hfr _ hr
  have hr32 : r ≤ 2 ^ 32 := Nat.le_of_lt hr
  have hproduct : drawnValue e r = drawProduct e.fr r := rfl
  refine ⟨f64Mag_toF64 hr32, frLegal_draw_remainder hfr hr32, ?_⟩
  rw [drawnOffset, hproduct, f64Mag_fsub_toF64_floor (f64Neg_drawProduct hfr hr32)
    (f64Exp_drawProduct_lt hfr hr32) (f64Floor_drawProduct_le hfr hr32), f64Floor_eq]
  exact Nat.mod_add_div' _ _

end Sys2Proof.Proofs.UnitInterval

/-! ## The incremental walk (spec/41_accumulator.md R140, R143, R145)

The direct accumulator is linear in the Gray code: it is the XOR of the table entries that the code selects. One step of the
index flips one bit of the code, so one step of the walk carries the direct accumulator of an index to that of its neighbour. -/
namespace Sys2Proof.Proofs.GrayWalk

open Sys2Proof Sys2Proof.Machine

/-! ### Consecutive Gray codes -/

theorem gray_xor (a b : Nat) : gray (a ^^^ b) = gray a ^^^ gray b := by
  simp only [gray, Nat.shiftRight_xor_distrib]
  ac_rfl

/-- A number that is not 0 is an odd multiple of a power of two. -/
theorem exists_succ_eq_odd_mul (m : Nat) : ∃ t k, m + 1 = 2 ^ (t + 1) * k + 2 ^ t := by
  obtain ⟨t, c, ⟨k, rfl⟩, h⟩ := Nat.exists_eq_two_pow_mul_odd (Nat.succ_ne_zero m)
  exact ⟨t, k, by rw [← Nat.succ_eq_add_one, h, pow_succ]; ring⟩

/-- From one number to the next, the lowest one bit of the greater and the bits below it change. -/
theorem xor_succ_eq {m t k : Nat} (h : m + 1 = 2 ^ (t + 1) * k + 2 ^ t) : m ^^^ (m + 1) = 2 ^ (t + 1) - 1 := by
  have hpos := Nat.two_pow_pos t
  have hlt : 2 ^ t < 2 ^ (t + 1) := Nat.pow_lt_pow_right (by decide) (Nat.lt_succ_self t)
  have hm : m = 2 ^ (t + 1) * k + (2 ^ t - 1) := by omega
  refine Nat.eq_of_testBit_eq fun i => ?_
  rw [Nat.testBit_xor, h, hm, Nat.testBit_two_pow_mul_add _ hlt, Nat.testBit_two_pow_mul_add _ (by omega),
    Nat.testBit_two_pow_sub_one, Nat.testBit_two_pow_sub_one, Nat.testBit_two_pow]
  by_cases hi : i < t + 1
  · by_cases ht : i = t
    · simp [ht]
    · simp [hi, show i < t by omega, show t ≠ i from fun h => ht h.symm]
  · simp [hi]

theorem gray_low_ones (t : Nat) : gray (2 ^ (t + 1) - 1) = 2 ^ t := by
  refine Nat.eq_of_testBit_eq fun i => ?_
  rw [gray, Nat.testBit_xor, Nat.testBit_shiftRight, Nat.testBit_two_pow_sub_one, Nat.testBit_two_pow_sub_one,
    Nat.testBit_two_pow]
  rcases Nat.lt_trichotomy i t with h | rfl | h
  · simp [show i < t + 1 by omega, show 1 + i < t + 1 by omega, Nat.ne_of_gt h]
  · simp [show ¬ 1 + i < i + 1 by omega]
  · simp [show ¬ i < t + 1 by omega, show ¬ 1 + i < t + 1 by omega, Nat.ne_of_lt h]

/-- Consecutive Gray codes differ in the lowest one bit of the greater index (R140). -/
theorem gray_succ {m t k : Nat} (h : m + 1 = 2 ^ (t + 1) * k + 2 ^ t) : gray (m + 1) = gray m ^^^ 2 ^ t := by
  rw [← gray_low_ones t, ← xor_succ_eq h, gray_xor, ← Nat.xor_assoc, Nat.xor_self, Nat.zero_xor]

theorem testBit_odd_mul {t k i : Nat} (hi : i ≤ t) : (2 ^ (t + 1) * k + 2 ^ t).testBit i = decide (i = t) := by
  have hlt : 2 ^ t < 2 ^ (t + 1) := Nat.pow_lt_pow_right (by decide) (Nat.lt_succ_self t)
  rw [Nat.testBit_two_pow_mul_add _ hlt, if_pos (by omega), Nat.testBit_two_pow]
  exact decide_eq_decide.2 eq_comm

/-- The walk reads the table at that bit. -/
theorem lowestOne_odd_mul {t k : Nat} (ht : t < 63) : lowestOne (2 ^ (t + 1) * k + 2 ^ t) = some ⟨t, ht⟩ := by
  unfold lowestOne
  rw [List.find?_eq_some_iff_getElem]
  refine ⟨by simp [testBit_odd_mul (Nat.le_refl t)], t, by simpa using ht, by simp, fun i hi => ?_⟩
  simp [testBit_odd_mul (Nat.le_of_lt hi), Nat.ne_of_lt hi]

/-! ### The entries a code selects -/

/-- The XOR of the words at the positions in a list where `g` has a one. -/
def xorSelected (v : BitPos → Word) (g : Nat) : List BitPos → Word
  | [] => 0#64
  | j :: l => (if g.testBit j.val then v j else 0#64) ^^^ xorSelected v g l

theorem foldl_eq_xorSelected (v : BitPos → Word) (g : Nat) (l : List BitPos) (acc : Word) :
    l.foldl (fun acc j => if g.testBit j.val then acc ^^^ v j else acc) acc = acc ^^^ xorSelected v g l := by
  induction l generalizing acc with
  | nil => simp [xorSelected]
  | cons j l ih =>
    rw [List.foldl_cons, ih, xorSelected]
    split
    · rw [BitVec.xor_assoc]
    · rw [BitVec.zero_xor]

theorem directAcc_eq_xorSelected (t : Table) (d : Dim) (n : Nat) :
    directAcc t d n = xorSelected (tblRead t d) (gray n) (List.finRange 63) := by
  rw [directAcc, foldl_eq_xorSelected]
  exact BitVec.zero_xor

theorem xorSelected_xor (v : BitPos → Word) (g h : Nat) (l : List BitPos) :
    xorSelected v (g ^^^ h) l = xorSelected v g l ^^^ xorSelected v h l := by
  induction l with
  | nil => simp [xorSelected]
  | cons j l ih =>
    have hj : (if (g ^^^ h).testBit j.val then v j else 0#64) =
        (if g.testBit j.val then v j else 0#64) ^^^ (if h.testBit j.val then v j else 0#64) := by
      rw [Nat.testBit_xor]
      cases g.testBit j.val <;> cases h.testBit j.val <;> simp
    rw [xorSelected, xorSelected, xorSelected, ih, hj]
    ac_rfl

theorem xorSelected_two_pow_of_not_mem (v : BitPos → Word) {i : BitPos} {l : List BitPos} (hi : i ∉ l) :
    xorSelected v (2 ^ i.val) l = 0#64 := by
  induction l with
  | nil => rfl
  | cons j l ih =>
    obtain ⟨hij, hil⟩ := not_or.1 (mt List.mem_cons.2 hi)
    rw [xorSelected, ih hil, Nat.testBit_two_pow_of_ne (fun h => hij (Fin.ext h))]
    simp

theorem xorSelected_two_pow (v : BitPos → Word) {i : BitPos} {l : List BitPos} (hi : i ∈ l) (hl : l.Nodup) :
    xorSelected v (2 ^ i.val) l = v i := by
  induction l with
  | nil => cases hi
  | cons j l ih =>
    obtain ⟨hjl, hl⟩ := List.nodup_cons.1 hl
    rw [xorSelected]
    rcases List.mem_cons.1 hi with rfl | hil
    · rw [xorSelected_two_pow_of_not_mem v hjl, Nat.testBit_two_pow_self]
      exact BitVec.xor_zero
    · have hij : i.val ≠ j.val := fun h => hjl (Fin.ext h ▸ hil)
      rw [ih hil hl, Nat.testBit_two_pow_of_ne hij]
      exact BitVec.zero_xor

/-! ### The walk -/

section walk

variable {t : Table} {d : Dim}

/-- One step of the walk carries the direct accumulator to the next index (R143). -/
theorem walkStep_directAcc {m : Nat} (hm : m + 1 < 2 ^ 63) :
    walkStep t d (m + 1) (directAcc t d m) = directAcc t d (m + 1) := by
  obtain ⟨b, k, h⟩ := exists_succ_eq_odd_mul m
  have hb : b < 63 := (Nat.pow_lt_pow_iff_right (by decide)).1 (show 2 ^ b < 2 ^ 63 by omega)
  have hlow : lowestOne (m + 1) = some ⟨b, hb⟩ := by rw [h, lowestOne_odd_mul hb]
  rw [walkStep, hlow, directAcc_eq_xorSelected, directAcc_eq_xorSelected, gray_succ h, xorSelected_xor,
    xorSelected_two_pow (i := ⟨b, hb⟩) _ (List.mem_finRange _) (List.nodup_finRange 63)]

theorem walkStep_walkStep (m : Nat) (v : Word) : walkStep t d m (walkStep t d m v) = v := by
  unfold walkStep
  split
  · rw [BitVec.xor_assoc, BitVec.xor_self, BitVec.xor_zero]
  · rfl

theorem walkUp_directAcc {k m : Nat} (h : m + k < 2 ^ 63) :
    walkUp t d k m (directAcc t d m) = directAcc t d (m + k) := by
  induction k generalizing m with
  | zero => rfl
  | succ k ih =>
    rw [walkUp, walkStep_directAcc (by omega), ih (by omega), Nat.add_right_comm, Nat.add_assoc]

theorem walkDown_directAcc {k m : Nat} (hk : k ≤ m) (hm : m < 2 ^ 63) :
    walkDown t d k m (directAcc t d m) = directAcc t d (m - k) := by
  induction k generalizing m with
  | zero => rfl
  | succ k ih =>
    obtain ⟨p, rfl⟩ : ∃ p, m = p + 1 := ⟨m - 1, by omega⟩
    rw [walkDown, ← walkStep_directAcc hm, walkStep_walkStep, Nat.add_sub_cancel, ih (by omega) (by omega),
      Nat.add_sub_add_right]

/-- From an entry that satisfies R25 the walk answers the direct accumulator (R145). -/
theorem incrementalWalk_eq {c : CacheEntry} {n : Nat} (hc : CacheAgrees t d c) (hn : n < 2 ^ 63) :
    incrementalWalk t d c n = directAcc t d n := by
  obtain ⟨hidx, hval⟩ := hc
  rw [incrementalWalk, hval]
  rcases Nat.le_total c.idx.toNat n with hle | hle
  · rw [Nat.sub_eq_zero_of_le hle, walkDown, walkUp_directAcc (by omega), Nat.add_sub_cancel' hle]
  · rw [Nat.sub_eq_zero_of_le hle, walkUp, walkDown_directAcc (Nat.sub_le ..) hidx, Nat.sub_sub_self hle]

/-- Either strategy of a refresh stores the direct accumulator (R142, R145). -/
theorem refresh_eq {e : Engine} {n : Word} (hc : CacheAgrees t d (cacheAt e d)) (hn : n.toNat < 2 ^ 63) :
    refresh t e d n =
      if (cacheAt e d).idx = n then .ok e else storeAcc e d (directAcc t d n.toNat) n := by
  rw [refresh, incrementalWalk_eq hc hn, ite_self]

end walk

end Sys2Proof.Proofs.GrayWalk

/-! ## What one step can make of an engine (spec/10_state.md R27, R28, R31, R204, R293)

One inversion of the step, from which each invariant is a case split: the build, an idle step, a reset, or one engine served. -/
namespace Sys2Proof.Proofs.Transfer

open Sys2Proof Sys2Proof.Machine Sys2Proof.Proofs.UnitInterval Sys2Proof.Proofs.GrayWalk

/-! ### The micro-operations -/

/-- `e` after dimension `d` of index `n` was selected with the accumulator `v`, with a new `STATUS`. -/
def loadedAt (e : Engine) (d : Dim) (n v status : Word) : Engine :=
  { setCache e d { val := v, idx := n } with
    idx := n, dim := d, fr := normalizer v, prod := 1, status := status }

/-- With the direct accumulator and `STATUS` kept it is the state the completion statements name. -/
theorem loadedAt_directAcc (t : Table) (e : Engine) (d : Dim) (n : Word) :
    loadedAt e d n (directAcc t d n.toNat) e.status = selected t e d n := rfl

/-- What a command that completes can make of its engine. A selection raises no index to `2^63` or more, loads a sample below
1.0, and from an entry that satisfies R25 stores the direct accumulator. -/
inductive CommandEffect (t : Table) (e : Engine) : Engine → Prop
  | keep : CommandEffect t e e
  | select (d : Dim) (n v status : Word) (hn : n = e.idx ∨ n.toNat < 2 ^ 63)
      (hstatus : status = e.status ∨ status = statusSetWrap e.status)
      (hsample : f64GeOne (normalizer v) = false)
      (hacc : CacheAgrees t d (cacheAt e d) → n.toNat < 2 ^ 63 → v = directAcc t d n.toNat) :
      CommandEffect t e (loadedAt e d n v status)
  | draw (r : Nat) (hpos : 1 ≤ r) (hr : r < 2 ^ 32) (hbudget : e.prod.toNat * r ≤ 2048) :
      CommandEffect t e { e with
        fr := fsub (drawProduct e.fr r) (toF64 (f64Floor (drawProduct e.fr r)))
        prod := BitVec.ofNat 64 (e.prod.toNat * r) }

section operations

variable {t : Table} {e e' : Engine}

/-- A refresh writes one entry, maybe with what it holds. -/
theorem refresh_ok_setCache {d : Dim} {n : Word} (h : refresh t e d n = .ok e') :
    ∃ v, e' = setCache e d { val := v, idx := n } ∧
      (CacheAgrees t d (cacheAt e d) → n.toNat < 2 ^ 63 → v = directAcc t d n.toNat) := by
  rcases refresh_ok h with ⟨hidx, rfl⟩ | ⟨-, v, -, rfl, hv⟩
  · refine ⟨(cacheAt e' d).val, ?_, fun hc _ => ?_⟩
    · rw [← hidx]
      exact (setCache_cacheAt e' d).symm
    · rw [← hidx]
      exact hc.2
  · exact ⟨v, rfl, fun hc hn => by rw [hv, incrementalWalk_eq hc hn, ite_self]⟩

/-- The load of the entry that was just written. -/
theorem load_setCache_ok {d : Dim} {n v status : Word}
    (h : load (setCache { e with idx := n, dim := d, status := status } d { val := v, idx := n }) d = .ok e') :
    f64GeOne (normalizer v) = false ∧ e' = loadedAt e d n v status := by
  obtain ⟨hsample, rfl⟩ := load_ok h
  rw [cacheAt_setCache_same] at hsample ⊢
  exact ⟨hsample, rfl⟩

theorem refreshLoad_effect {d : Dim} {n status : Word} (hn : n = e.idx ∨ n.toNat < 2 ^ 63)
    (hstatus : status = e.status ∨ status = statusSetWrap e.status)
    (h : refreshLoad t { e with idx := n, dim := d, status := status } d n = .ok e') : CommandEffect t e e' := by
  obtain ⟨e1, hrefresh, hload⟩ := refreshLoad_ok h
  obtain ⟨v, rfl, hacc⟩ := refresh_ok_setCache hrefresh
  obtain ⟨hsample, rfl⟩ := load_setCache_ok hload
  exact .select d n v status hn hstatus hsample hacc

theorem advanceIndex_effect {status : Word} (hstatus : status = e.status ∨ status = statusSetWrap e.status)
    (h : advanceIndex t { e with status := status } = .ok e') : CommandEffect t e e' := by
  obtain ⟨hlt, hload⟩ := advanceIndex_ok h
  refine refreshLoad_effect (.inr ?_) hstatus hload
  have hidx : e.idx.toNat + 1 < 2 ^ 63 := hlt
  rw [BitVec.toNat_add_of_lt (by simpa using Nat.lt_trans hidx (by decide))]
  exact hidx

theorem advanceDim_effect (h : advanceDim t e = .ok e') : CommandEffect t e e' := by
  rcases advanceDim_ok h with ⟨-, hload⟩ | ⟨-, hwrap⟩
  · exact refreshLoad_effect (.inl rfl) (.inl rfl) hload
  · exact advanceIndex_effect (.inr rfl) (wrap_ok hwrap)

theorem advanceAndAnswer_effect {w w' : Word} (h : advanceAndAnswer t e w = .ok (e', w')) :
    CommandEffect t e e' :=
  advanceDim_effect (advanceAndAnswer_ok h).2

theorem seek_effect {k : Nat} {w : Word} (h : seek t e k = .ok (e', w)) : CommandEffect t e e' := by
  obtain ⟨hk, -, hseek⟩ := seek_ok h
  obtain ⟨e1, hrecompute, hload⟩ := recomputeLoad_ok hseek
  obtain ⟨-, rfl⟩ := recompute_ok hrecompute
  obtain ⟨hsample, rfl⟩ := load_setCache_ok (status := e.status) hload
  refine .select 0 _ _ _ (.inr ?_) (.inl rfl) hsample fun _ _ => rfl
  rw [BitVec.toNat_ofNat, Nat.mod_eq_of_lt (Nat.lt_trans hk (by decide))]
  exact hk

theorem boundedDraw_effect {lo hi : Nat} {w : Word} (hhi : hi < 2 ^ 32)
    (h : boundedDraw t e lo hi = .ok (e', w)) : CommandEffect t e e' := by
  obtain ⟨hlt, -, -, ⟨-, hspend⟩ | ⟨hbudget, rfl⟩⟩ := boundedDraw_ok h
  · exact advanceDim_effect hspend
  · exact .draw (hi - lo) (by omega) (by omega) hbudget

theorem readCache_effect {a w : Word} {field : CacheEntry → Word} (h : readCache e a field = .ok (e', w)) :
    CommandEffect t e e' := by
  unfold readCache at h
  split at h
  · cases h
  · cases h
    exact .keep

end operations

/-! ### A command -/

/-- What one transfer with the host can make of the engine that takes part in it. -/
inductive TransferEffect (t : Table) (e : Engine) : Engine → Prop
  | refused : TransferEffect t e (refuse e)
  | read (w : Word) : TransferEffect t e (respond e w)
  | completed (hrun : statusFaulted e.status = false) {e1 : Engine} (h : CommandEffect t e e1) (w : Word) :
      TransferEffect t e (respond e1 w)
  | faulted (hrun : statusFaulted e.status = false) (a : Abort) : TransferEffect t e (onFault e a)
  | taken : TransferEffect t e { e with rsp := none, observed := e.observed ++ e.rsp.toList }
  | strapped (level : Bool) : TransferEffect t e { e with strap := level }

theorem answer_effect {s s' : State} {body : Except Abort (Engine × Word)}
    (hbody : ∀ e w, body = .ok (e, w) → CommandEffect s.table s.eng e) (h : answer s body = .next s') :
    ∃ e', s' = { s with eng := e' } ∧ TransferEffect s.table s.eng e' := by
  rcases answer_eq s body with ⟨-, heq⟩ | ⟨hrun, e, w, hok, heq⟩ | ⟨hrun, a, -, heq⟩
  · cases heq.symm.trans h
    exact ⟨_, rfl, .refused⟩
  · cases heq.symm.trans h
    exact ⟨_, rfl, .completed hrun (hbody e w hok) w⟩
  · cases heq.symm.trans h
    exact ⟨_, rfl, .faulted hrun a⟩

theorem exec_effect {i : Instr} {s s' : State} (h : exec i s = .next s') :
    ∃ e', s' = { s with eng := e' } ∧ TransferEffect s.table s.eng e' := by
  have hkeep : ∀ (data : Word) (e : Engine) (w : Word),
      (Except.ok (s.eng, data) : Except Abort (Engine × Word)) = .ok (e, w) → CommandEffect s.table s.eng e := by
    rintro _ _ _ ⟨⟩
    exact .keep
  cases i with
  | getdimcnt => exact answer_effect (hkeep _) h
  | setidx a => exact answer_effect (fun _ _ => seek_effect) h
  | advidx =>
    refine answer_effect (fun e w hok => ?_) h
    split at hok
    · cases hok
    · cases hok
      exact advanceIndex_effect (.inl rfl) ‹_›
  | setdim a =>
    refine answer_effect (fun e w hok => ?_) h
    split at hok
    · cases hok
    · split at hok
      · cases hok
      · cases hok
        exact refreshLoad_effect (.inl rfl) (.inl rfl) ‹_›
  | nextval => exact answer_effect (fun _ _ => advanceAndAnswer_effect) h
  | nextuint a b => exact answer_effect (fun _ _ => boundedDraw_effect (lowerHalf b).isLt) h
  | nextdbl a b => exact answer_effect (fun _ _ => advanceAndAnswer_effect) h
  | seeddims a => exact answer_effect (fun _ _ => seek_effect) h
  | tblrd a b =>
    refine answer_effect (fun e w hok => ?_) h
    split at hok
    · exact hkeep _ e w hok
    · cases hok
    · cases hok
  | rdregIdx => exact answer_effect (hkeep _) h
  | rdregDim => exact answer_effect (hkeep _) h
  | rdregAcc => exact answer_effect (hkeep _) h
  | rdregFr => exact answer_effect (hkeep _) h
  | rdregProd => exact answer_effect (hkeep _) h
  | rdregStatus =>
    cases h
    exact ⟨_, rfl, .read _⟩
  | rdregConfig =>
    cases h
    exact ⟨_, rfl, .read _⟩
  | rdregCval a => exact answer_effect (fun _ _ => readCache_effect) h
  | rdregCidx a => exact answer_effect (fun _ _ => readCache_effect) h

theorem serve_effect {c : Command} {s s' : State} (h : serve c s = .next s') :
    ∃ e', s' = { s with eng := e' } ∧ TransferEffect s.table s.eng e' := by
  unfold serve at h
  split at h
  · exact exec_effect h
  · exact answer_effect (fun _ _ hok => by cases hok) h

/-! ### A step -/

/-- `t` is `s` after a transfer with one engine: the others, the table and what is fixed are as they were. -/
def ServesOne (s t : State) : Prop :=
  t.table = s.table ∧ t.bstate = s.bstate ∧ t.params = s.params ∧
    ∃ lower e e' upper, engines s = lower ++ e :: upper ∧ engines t = lower ++ e' :: upper ∧
      TransferEffect s.table e e'

theorem servesOne_of_focus {s s1 : State} {k : Nat} {rest : List HostEvent} {e' : Engine}
    (hfocus : focus k { s with host := rest } = some s1) (heffect : TransferEffect s1.table s1.eng e') :
    ServesOne s { s1 with eng := e' } := by
  obtain ⟨hengines, -, -, hs1⟩ := focus_eq_some hfocus
  have htable : s1.table = s.table := by rw [hs1]
  have hbstate : s1.bstate = s.bstate := by rw [hs1]
  have hparams : s1.params = s.params := by rw [hs1]
  exact ⟨htable, hbstate, hparams, s1.lower, s1.eng, e', s1.upper, hengines.symm, rfl, htable ▸ heffect⟩

/-- What one step can do. -/
theorem step_next_cases {s t : State} (h : step s = .next t) :
    (s.bstate = .building ∧ t = build s) ∨
    (s.bstate ≠ .building ∧
      (t = s ∨ (∃ rest, pick s s.host = some (.reset, rest) ∧ t = resetBlock { s with host := rest }) ∨
        ServesOne s t)) := by
  rcases step_cases s with ⟨hb, hstep⟩ | ⟨hb, hstep⟩
  · cases hstep.symm.trans h
    exact .inl ⟨hb, rfl⟩
  · refine .inr ⟨hb, ?_⟩
    rw [hstep] at h
    rcases hostTransfer_cases s with ⟨-, hidle⟩ | ⟨a, rest, hpick, hperform⟩
    · cases hidle.symm.trans h
      exact .inl rfl
    · rw [hperform] at h
      cases a with
      | command k c =>
        obtain ⟨s1, hfocus, hserve⟩ := transferCommand_next h
        obtain ⟨e', rfl, heffect⟩ := serve_effect hserve
        exact .inr (.inr (servesOne_of_focus hfocus heffect))
      | take k =>
        obtain ⟨s1, hfocus, rfl⟩ := transferResponse_next h
        exact .inr (.inr (servesOne_of_focus hfocus .taken))
      | strap k level =>
        obtain ⟨s1, hfocus, rfl⟩ := driveStrap_next h
        exact .inr (.inr (servesOne_of_focus hfocus (.strapped level)))
      | reset =>
        cases h
        exact .inr (.inl ⟨rest, hpick, rfl⟩)

/-- What holds of every engine, and is kept of the one that is served, holds of every engine afterwards. -/
theorem ServesOne.forall_engines {s t : State} {P : Engine → Prop} (h : ServesOne s t)
    (hs : ∀ e ∈ engines s, P e) (hkeep : ∀ e e', TransferEffect s.table e e' → P e → P e') :
    ∀ e ∈ engines t, P e := by
  obtain ⟨-, -, -, lower, e, e', upper, hengines, hengines', heffect⟩ := h
  rw [hengines] at hs
  rw [hengines']
  simp only [List.forall_mem_append, List.forall_mem_cons] at hs ⊢
  obtain ⟨hlower, he, hupper⟩ := hs
  exact ⟨hlower, hkeep e e' heffect he, hupper⟩

/-! ### What no step but a reset changes -/

theorem commandEffect_config {t : Table} {e e' : Engine} (h : CommandEffect t e e') : e'.config = e.config := by
  cases h <;> rfl

theorem transferEffect_config {t : Table} {e e' : Engine} (h : TransferEffect t e e') :
    e'.config = e.config := by
  cases h with
  | completed _ hcommand w => rw [respond_config, commandEffect_config hcommand]
  | refused | read | faulted | taken | strapped => rfl

/-- Settles O55: with the build over and no reset, a step is idle or serves one engine, and no transfer writes `CONFIG`. -/
theorem tableAndConfigurationAreImmutable : Obligations.TableAndConfigurationAreImmutable := by
  intro s t hb hreset hstep
  rcases step_next_cases hstep with ⟨hbuilding, -⟩ | ⟨-, rfl | ⟨rest, hpick, -⟩ | hserves⟩
  · exact absurd hbuilding hb
  · exact ⟨rfl, rfl, rfl, rfl⟩
  · exact absurd hpick (hreset rest)
  · obtain ⟨htable, hbstate, hparams, lower, e, e', upper, hengines, hengines', heffect⟩ := hserves
    exact ⟨htable, hbstate, hparams, by
      rw [hengines, hengines', List.map_append, List.map_append, List.map_cons, List.map_cons,
        transferEffect_config heffect]⟩

/-! ### The extraction registers -/

/-- A sample that is not 1.0 or more is a legal `FR` (R146). -/
theorem frLegal_normalizer {v : Word} (h : f64GeOne (normalizer v) = false) : FrLegal (normalizer v) := by
  refine (frLegal_iff _).2 ⟨?_, ?_⟩
  · unfold normalizer rneFrac63
    exact f64Neg_pack_rneBits _
  · unfold f64GeOne at h
    exact Nat.lt_of_not_le (of_decide_eq_false h)

theorem frLegal_zero : FrLegal 0 := (by decide : (0#64).toNat < f64One.toNat)

theorem prodLegal_one : ProdLegal 1 := ⟨by decide, by decide⟩

theorem commandEffect_extraction {t : Table} {e e' : Engine} (h : CommandEffect t e e')
    (he : FrLegal e.fr ∧ ProdLegal e.prod) : FrLegal e'.fr ∧ ProdLegal e'.prod := by
  obtain ⟨hfr, hpos, hle⟩ := he
  cases h with
  | keep => exact ⟨hfr, hpos, hle⟩
  | select d n v status _ _ hsample _ => exact ⟨frLegal_normalizer hsample, prodLegal_one⟩
  | draw r hr1 hr hbudget =>
    refine ⟨frLegal_draw_remainder hfr (Nat.le_of_lt hr), ?_⟩
    have hprod : 1 ≤ e.prod.toNat * r := Nat.mul_pos hpos hr1
    unfold ProdLegal
    rw [BitVec.toNat_ofNat, Nat.mod_eq_of_lt (Nat.lt_of_le_of_lt hbudget (by decide))]
    exact ⟨hprod, hbudget⟩

theorem transferEffect_extraction {t : Table} {e e' : Engine} (h : TransferEffect t e e')
    (he : FrLegal e.fr ∧ ProdLegal e.prod) : FrLegal e'.fr ∧ ProdLegal e'.prod := by
  cases h with
  | completed _ hcommand w =>
    rw [respond_fr, respond_prod]
    exact commandEffect_extraction hcommand he
  | refused | read | faulted | taken | strapped => exact he

theorem extractionSound_mapEngines {s : State} {f : Engine → Engine}
    (hf : ∀ e, FrLegal e.fr ∧ ProdLegal e.prod → FrLegal (f e).fr ∧ ProdLegal (f e).prod)
    (h : ExtractionSound s) : ExtractionSound (mapEngines f s) := by
  intro e he
  rw [engines_mapEngines] at he
  obtain ⟨e0, he0, rfl⟩ := List.mem_map.1 he
  exact hf e0 (h e0 he0)

theorem atReset_extraction (strap : Bool) (nv : Config.NvSource) (observed : List Response) :
    FrLegal (Engine.atReset strap nv observed).fr ∧ ProdLegal (Engine.atReset strap nv observed).prod :=
  ⟨frLegal_zero, prodLegal_one⟩

/-- Settles O60: a load leaves a sample below 1.0 and `PROD` 1, a draw the exact fraction and a product within the budget. -/
theorem stepKeepsTheExtractionSound : Obligations.StepKeepsTheExtractionSound := by
  intro s t hs hstep
  rcases step_next_cases hstep with ⟨-, rfl⟩ | ⟨-, rfl | ⟨rest, -, rfl⟩ | hserves⟩
  · rcases build_cases s with ⟨-, hbuild⟩ | ⟨-, hbuild⟩ <;> rw [hbuild]
    · exact extractionSound_mapEngines (fun _ h => h) hs
    · exact extractionSound_mapEngines (fun _ h => h) hs
  · exact hs
  · intro e he
    rw [engines_resetBlock] at he
    obtain ⟨e0, -, rfl⟩ := List.mem_map.1 he
    exact atReset_extraction _ _ _
  · exact hserves.forall_engines hs fun e e' heffect => transferEffect_extraction heffect

end Sys2Proof.Proofs.Transfer

/-! ## The mode (spec/10_state.md R34, spec/41_accumulator.md R145)

`CONFIG` is read by `refresh`, where both strategies store the same accumulator, and by `valueOut`, which looks at `NVSRC` only.
So every operation commutes with a change of the mode. -/
namespace Sys2Proof.Proofs.Mode

open Sys2Proof Sys2Proof.Machine Sys2Proof.Proofs.GrayWalk

/-- `e` with another `CONFIG`. -/
def withConfig (m : Word) (e : Engine) : Engine := { e with config := m }

section operations

variable {t : Table} {e : Engine} (m : Word)

@[simp] theorem withConfig_idx : (withConfig m e).idx = e.idx := rfl
@[simp] theorem withConfig_dim : (withConfig m e).dim = e.dim := rfl
@[simp] theorem withConfig_fr : (withConfig m e).fr = e.fr := rfl
@[simp] theorem withConfig_prod : (withConfig m e).prod = e.prod := rfl
@[simp] theorem cacheAt_withConfig (d : Dim) : cacheAt (withConfig m e) d = cacheAt e d := rfl

theorem storeAcc_withConfig (d : Dim) (v n : Word) :
    storeAcc (withConfig m e) d v n = (storeAcc e d v n).map (withConfig m) := by
  unfold storeAcc
  split <;> rfl

theorem refresh_withConfig {d : Dim} {n : Word} (hc : CacheAgrees t d (cacheAt e d)) (hn : n.toNat < 2 ^ 63) :
    refresh t (withConfig m e) d n = (refresh t e d n).map (withConfig m) := by
  rw [refresh_eq hc hn, refresh_eq (e := withConfig m e) hc hn, cacheAt_withConfig, storeAcc_withConfig]
  split <;> rfl

theorem load_withConfig (d : Dim) : load (withConfig m e) d = (load e d).map (withConfig m) := by
  unfold load
  rw [cacheAt_withConfig]
  dsimp only
  split <;> rfl

theorem refreshLoad_withConfig {d : Dim} {n : Word} (hc : CacheAgrees t d (cacheAt e d)) (hn : n.toNat < 2 ^ 63) :
    refreshLoad t (withConfig m e) d n = (refreshLoad t e d n).map (withConfig m) := by
  unfold refreshLoad
  rw [refresh_withConfig m hc hn]
  cases refresh t e d n with
  | error a => rfl
  | ok e1 => exact load_withConfig m d

theorem recomputeLoad_withConfig (d : Dim) (n : Word) :
    recomputeLoad t (withConfig m e) d n = (recomputeLoad t e d n).map (withConfig m) := by
  unfold recomputeLoad recompute
  rw [storeAcc_withConfig]
  cases storeAcc e d (directAcc t d n.toNat) n with
  | error a => rfl
  | ok e1 => exact load_withConfig m d

theorem seek_withConfig (k : Nat) :
    seek t (withConfig m e) k = (seek t e k).map (Prod.map (withConfig m) id) := by
  have hload := recomputeLoad_withConfig (t := t) (e := { e with idx := BitVec.ofNat 64 k, dim := 0 }) m 0
    (BitVec.ofNat 64 k)
  unfold seek
  split
  · rfl
  · rw [show ({ withConfig m e with idx := BitVec.ofNat 64 k, dim := 0 } : Engine) =
      withConfig m { e with idx := BitVec.ofNat 64 k, dim := 0 } from rfl, hload]
    cases recomputeLoad t { e with idx := BitVec.ofNat 64 k, dim := 0 } 0 (BitVec.ofNat 64 k) <;> rfl

theorem readCache_withConfig (a : Word) (field : CacheEntry → Word) :
    readCache (withConfig m e) a field = (readCache e a field).map (Prod.map (withConfig m) id) := by
  unfold readCache
  split <;> rfl

theorem valueOut_withConfig (hm : m.getLsbD 1 = e.config.getLsbD 1) : valueOut (withConfig m e) = valueOut e := by
  have hsource : configRemainder (withConfig m e).config = configRemainder e.config := hm
  rw [valueOut, valueOut, hsource, withConfig_fr, withConfig_dim, cacheAt_withConfig]

theorem advanceIndex_withConfig (hc : ∀ d, CacheAgrees t d (cacheAt e d)) :
    advanceIndex t (withConfig m e) = (advanceIndex t e).map (withConfig m) := by
  rw [advanceIndex, advanceIndex, withConfig_idx]
  by_cases hlimit : Config.idxLimit ≤ e.idx.toNat + 1
  · rw [if_pos hlimit, if_pos hlimit]
    rfl
  · rw [if_neg hlimit, if_neg hlimit]
    have hidx : e.idx.toNat + 1 < 2 ^ 63 := Nat.lt_of_not_le hlimit
    refine refreshLoad_withConfig (e := { e with idx := e.idx + 1, dim := 0 }) m (hc 0) ?_
    rw [BitVec.toNat_add_of_lt (Nat.lt_trans hidx (by decide))]
    exact hidx

theorem wrap_withConfig (hc : ∀ d, CacheAgrees t d (cacheAt e d)) :
    wrap t (withConfig m e) = (wrap t e).map (withConfig m) := by
  have hadvance := advanceIndex_withConfig (t := t) (e := { e with status := statusSetWrap e.status }) m hc
  unfold wrap
  rw [show ({ withConfig m e with status := statusSetWrap (withConfig m e).status } : Engine) =
    withConfig m { e with status := statusSetWrap e.status } from rfl, hadvance]
  cases advanceIndex t { e with status := statusSetWrap e.status } <;> rfl

theorem advanceDim_withConfig (hc : ∀ d, CacheAgrees t d (cacheAt e d)) (hidx : e.idx.toNat < 2 ^ 63) :
    advanceDim t (withConfig m e) = (advanceDim t e).map (withConfig m) := by
  rw [advanceDim, advanceDim, withConfig_dim, withConfig_idx]
  by_cases hdim : e.dim.toNat < 31
  · rw [if_pos hdim, if_pos hdim]
    exact refreshLoad_withConfig (e := { e with dim := e.dim + 1 }) m (hc _) hidx
  · rw [if_neg hdim, if_neg hdim]
    exact wrap_withConfig m hc

theorem advanceAndAnswer_withConfig (hc : ∀ d, CacheAgrees t d (cacheAt e d)) (hidx : e.idx.toNat < 2 ^ 63)
    (data : Word) :
    advanceAndAnswer t (withConfig m e) data = (advanceAndAnswer t e data).map (Prod.map (withConfig m) id) := by
  unfold advanceAndAnswer
  rw [advanceDim_withConfig m hc hidx]
  cases advanceDim t e <;> rfl

theorem boundedDraw_withConfig (hc : ∀ d, CacheAgrees t d (cacheAt e d)) (hidx : e.idx.toNat < 2 ^ 63)
    (lo hi : Nat) :
    boundedDraw t (withConfig m e) lo hi = (boundedDraw t e lo hi).map (Prod.map (withConfig m) id) := by
  unfold boundedDraw
  simp only [withConfig_fr, withConfig_prod, advanceAndAnswer_withConfig m hc hidx]
  split
  · rfl
  · split
    · rfl
    · split <;> rfl

end operations

/-! ### The commands -/

/-- A command whose results in the two modes differ in `CONFIG` only leaves engines that differ in `CONFIG` only. -/
theorem answer_withConfig {s : State} {m : Word} {body body' : Except Abort (Engine × Word)}
    (h : body' = body.map (Prod.map (withConfig m) id)) :
    ∃ e', answer s body = .next { s with eng := e' } ∧
      answer { s with eng := withConfig m s.eng } body' = .next { s with eng := withConfig m e' } := by
  subst h
  refine ⟨if halted s.eng then refuse s.eng else complete s.eng body, rfl, ?_⟩
  have hhalted : halted (withConfig m s.eng) = halted s.eng := rfl
  unfold answer
  rw [hhalted]
  split
  · rfl
  · cases body <;> rfl

/-- Settles O26: every operation commutes with a change of `CONFIG` that keeps `NVSRC`. -/
theorem modeNeverChangesAResult : Obligations.ModeNeverChangesAResult := by
  rintro i s m ⟨hidx, hc, -, -⟩ hi hm
  cases i with
  | getdimcnt => exact answer_withConfig rfl
  | setidx a => exact answer_withConfig (seek_withConfig m _)
  | advidx =>
    refine answer_withConfig ?_
    have hadvance := advanceIndex_withConfig m hc
    unfold withConfig at hadvance
    dsimp only
    rw [hadvance]
    cases advanceIndex s.table s.eng <;> rfl
  | setdim a =>
    refine answer_withConfig ?_
    cases dimOperand a with
    | none => rfl
    | some d =>
      have hload := refreshLoad_withConfig (e := { s.eng with dim := d }) m (hc d) hidx
      unfold withConfig at hload
      dsimp only at hload ⊢
      rw [hload]
      cases refreshLoad s.table { s.eng with dim := d } d s.eng.idx <;> rfl
  | nextval =>
    refine answer_withConfig ?_
    rw [← valueOut_withConfig m hm]
    exact advanceAndAnswer_withConfig m hc hidx _
  | nextuint a b => exact answer_withConfig (boundedDraw_withConfig m hc hidx _ _)
  | nextdbl a b =>
    refine answer_withConfig ?_
    rw [← valueOut_withConfig m hm]
    exact advanceAndAnswer_withConfig m hc hidx _
  | seeddims a => exact answer_withConfig (seek_withConfig m _)
  | tblrd a b =>
    refine answer_withConfig ?_
    split <;> rfl
  | rdregIdx => exact answer_withConfig rfl
  | rdregDim => exact answer_withConfig rfl
  | rdregAcc => exact answer_withConfig rfl
  | rdregFr => exact answer_withConfig rfl
  | rdregProd => exact answer_withConfig rfl
  | rdregStatus => exact ⟨_, rfl, rfl⟩
  | rdregConfig => exact absurd rfl hi
  | rdregCval a => exact answer_withConfig (readCache_withConfig m a _)
  | rdregCidx a => exact answer_withConfig (readCache_withConfig m a _)

end Sys2Proof.Proofs.Mode

/-! ## The invariant of the block (spec/10_state.md R22, R25, R26, R29, R30, R32, R35)

Per engine the invariant speaks of `STATUS`, `CONFIG` and the sequence registers. The build, a reset and a transfer each keep it:
the first two because an engine without a history satisfies R25 with any table, a transfer because what it loads is the direct
accumulator. -/
namespace Sys2Proof.Proofs.Block

open Sys2Proof Sys2Proof.Machine Sys2Proof.Proofs.UnitInterval Sys2Proof.Proofs.Transfer

/-! ### `STATUS` and `CONFIG` -/

theorem statusReserved_or (w v : Word) : statusReserved (w ||| v) = statusReserved w ||| statusReserved v := by
  unfold statusReserved
  ext i hi
  simp [Bool.and_or_distrib_right]

theorem statusSound_zero : StatusSound 0 := by
  unfold StatusSound
  decide

theorem statusSound_setReady {w : Word} (h : StatusSound w) : StatusSound (statusSetReady w) := by
  obtain ⟨hreserved, hcause⟩ := h
  refine ⟨?_, by rw [statusFaulted_setReady, statusCause_setReady]; exact hcause⟩
  rw [statusSetReady, statusReserved_or, hreserved]
  decide

theorem statusSound_setWrap {w : Word} (h : StatusSound w) : StatusSound (statusSetWrap w) := by
  obtain ⟨hreserved, hcause⟩ := h
  refine ⟨?_, by rw [statusFaulted_setWrap, statusCause_setWrap]; exact hcause⟩
  rw [statusSetWrap, statusReserved_or, hreserved]
  decide

theorem faultNumber_ne_zero (c : FaultCode) : faultNumber c ≠ 0 := by
  cases c <;> decide

theorem statusReserved_cause (c : FaultCode) : statusReserved ((faultNumber c).zeroExtend 64 <<< 8) = 0 := by
  cases c <;> decide

theorem statusReserved_and {w : Word} (h : statusReserved w = 0) (v : Word) : statusReserved (w &&& v) = 0 := by
  unfold statusReserved at h ⊢
  rw [BitVec.and_assoc, BitVec.and_comm v, ← BitVec.and_assoc, h]
  exact BitVec.zero_and

theorem statusSound_setFault {w : Word} (c : FaultCode) (h : statusReserved w = 0) :
    StatusSound (statusSetFault c w) := by
  refine ⟨?_, ?_⟩
  · rw [statusSetFault, statusReserved_or, statusReserved_or, statusReserved_and h, statusReserved_cause]
    decide
  · rw [statusFaulted_setFault, statusCause_setFault]
    exact iff_of_true rfl (faultNumber_ne_zero c)

theorem statusSound_onFault {e : Engine} (h : StatusSound e.status) (a : Abort) :
    StatusSound (onFault e a).status := by
  unfold onFault
  split
  · exact statusSound_setFault _ (statusSound_setWrap h).1
  · exact statusSound_setFault _ h.1

theorem statusReady_onFault (e : Engine) (a : Abort) :
    statusReady (onFault e a).status = statusReady e.status := by
  unfold onFault
  split
  · rw [statusReady_setFault, statusReady_setWrap]
  · rw [statusReady_setFault]

/-- Settles O14: the four words, field by field. -/
theorem configurationWordFields : Obligations.ConfigurationWordFields := by
  intro m nv
  cases m <;> cases nv <;> decide

/-! ### The sequence registers -/

theorem normalizer_zero : normalizer 0 = 0 := by
  unfold normalizer rneFrac63
  rw [show (0 : Word).toNat = 0 from rfl, Nat.zero_mul, rneBits_zero]
  rfl

/-- Every cache entry and the index are 0: the state of the sequence registers from reset to the first command. -/
def Pristine (e : Engine) : Prop := e.idx = 0 ∧ ∀ d, cacheAt e d = { val := 0, idx := 0 }

theorem cacheAgrees_zero (t : Table) (d : Dim) : CacheAgrees t d { val := 0, idx := 0 } :=
  ⟨by decide, directAcc_zero.symm⟩

theorem sequenceSound_of_pristine {e : Engine} (h : Pristine e) (t : Table) : SequenceSound t e := by
  obtain ⟨hidx, hcache⟩ := h
  refine ⟨by rw [hidx]; decide, fun d => by rw [hcache]; exact cacheAgrees_zero t d, by rw [hcache, hidx], ?_⟩
  rw [hcache, normalizer_zero]
  decide

/-- With `STATUS` and the cache of an engine before its build, the whole sequence state is that of reset. -/
theorem pristine_of_sequenceSound {t : Table} {e : Engine} (h : SequenceSound t e)
    (hcache : ∀ d, cacheAt e d = { val := 0, idx := 0 }) : Pristine e := by
  obtain ⟨-, -, hcurrent, -⟩ := h
  exact ⟨by rw [← hcurrent, hcache], hcache⟩

theorem pristine_atReset (strap : Bool) (nv : Config.NvSource) (observed : List Response) :
    Pristine (Engine.atReset strap nv observed) :=
  ⟨rfl, fun d => by simp [cacheAt, Engine.atReset]⟩

theorem cacheAt_loadedAt_same (e : Engine) (d : Dim) (n v status : Word) :
    cacheAt (loadedAt e d n v status) d = { val := v, idx := n } :=
  cacheAt_setCache_same e d _

theorem cacheAt_loadedAt_ne (e : Engine) {d d' : Dim} (n v status : Word) (h : d' ≠ d) :
    cacheAt (loadedAt e d n v status) d' = cacheAt e d' :=
  cacheAt_setCache_ne e d _ h

/-- A selection that stores the direct accumulator of a legal index and loads a sample below 1.0 keeps R22, R25, R26. -/
theorem sequenceSound_loadedAt {t : Table} {e : Engine} {d : Dim} {n v status : Word} (h : SequenceSound t e)
    (hn : n.toNat < 2 ^ 63) (hv : v = directAcc t d n.toNat) (hsample : f64GeOne (normalizer v) = false) :
    SequenceSound t (loadedAt e d n v status) := by
  obtain ⟨-, hcache, -, -⟩ := h
  have hentry := cacheAt_loadedAt_same e d n v status
  refine ⟨hn, fun d' => ?_, congrArg CacheEntry.idx hentry, ?_⟩
  · by_cases hd : d' = d
    · rw [hd, hentry]
      exact ⟨hn, hv⟩
    · rw [cacheAt_loadedAt_ne e n v status hd]
      exact hcache d'
  · show FrLegal (normalizer (cacheAt (loadedAt e d n v status) d).val)
    rw [hentry]
    exact frLegal_normalizer hsample

theorem commandEffect_sequenceSound {t : Table} {e e' : Engine} (h : CommandEffect t e e')
    (he : SequenceSound t e) : SequenceSound t e' := by
  have ⟨hidx, hcache, _, _⟩ := he
  cases h with
  | keep => exact he
  | draw => exact he
  | select d n v status hn _ hsample hacc =>
    have hlegal : n.toNat < 2 ^ 63 := by
      rcases hn with rfl | hlt
      · exact hidx
      · exact hlt
    exact sequenceSound_loadedAt he hlegal (hacc (hcache d) hlegal) hsample

theorem transferEffect_sequenceSound {t : Table} {e e' : Engine} (h : TransferEffect t e e')
    (he : SequenceSound t e) : SequenceSound t e' := by
  cases h with
  | completed _ hcommand w =>
    have hkept := commandEffect_sequenceSound hcommand he
    exact hkept
  | refused | read | faulted | taken | strapped => exact he

/-! ### One engine -/

/-- The invariant of one engine of a block whose builder is in state `b`. -/
def EngineSound (p : Config.Params) (t : Table) (b : BState) (e : Engine) : Prop :=
  StatusSound e.status ∧ ConfigSound p e ∧ SequenceSound t e ∧ (statusReady e.status = true ↔ b = .built) ∧
    (b = .failed → statusFaulted e.status = true ∧ statusCause e.status = 6)

/-- The invariant of the block, with the clauses about one engine put together. -/
theorem blockSound_iff (s : State) : BlockSound s ↔
    (s.bstate = .building → ∀ e ∈ engines s, e.status = 0 ∧ ∀ d, cacheAt e d = { val := 0, idx := 0 }) ∧
    (s.bstate = .built → paramsValid s.params.dirParams = true ∧ s.table = buildTable s.params.dirParams) ∧
    ∀ e ∈ engines s, EngineSound s.params s.table s.bstate e := by
  constructor
  · rintro ⟨⟨hbuilding, hbuilt, hfailed, hready⟩, hsound⟩
    refine ⟨hbuilding, hbuilt, fun e he => ?_⟩
    obtain ⟨hstatus, hconfig, hsequence⟩ := hsound e he
    exact ⟨hstatus, hconfig, hsequence, hready e he, fun hb => hfailed hb e he⟩
  · rintro ⟨hbuilding, hbuilt, hsound⟩
    refine ⟨⟨hbuilding, hbuilt, fun hb e he => ?_, fun e he => ?_⟩, fun e he => ?_⟩
    · obtain ⟨-, -, -, -, hfailed⟩ := hsound e he
      exact hfailed hb
    · obtain ⟨-, -, -, hready, -⟩ := hsound e he
      exact hready
    · obtain ⟨hstatus, hconfig, hsequence, -, -⟩ := hsound e he
      exact ⟨hstatus, hconfig, hsequence⟩

theorem commandEffect_status {t : Table} {e e' : Engine} (h : CommandEffect t e e') :
    e'.status = e.status ∨ e'.status = statusSetWrap e.status := by
  cases h with
  | keep | draw => exact .inl rfl
  | select d n v status _ hstatus => exact hstatus

theorem commandEffect_statusSound {t : Table} {e e' : Engine} (h : CommandEffect t e e')
    (he : StatusSound e.status) : StatusSound e'.status := by
  rcases commandEffect_status h with hstatus | hstatus <;> rw [hstatus]
  · exact he
  · exact statusSound_setWrap he

theorem commandEffect_ready {t : Table} {e e' : Engine} (h : CommandEffect t e e') :
    statusReady e'.status = statusReady e.status := by
  rcases commandEffect_status h with hstatus | hstatus <;> rw [hstatus]
  exact statusReady_setWrap _

/-- A transfer keeps the invariant of its engine. After a failed build every engine is halted, so no command runs. -/
theorem transferEffect_engineSound {p : Config.Params} {t : Table} {b : BState} {e e' : Engine}
    (h : TransferEffect t e e') (he : EngineSound p t b e) : EngineSound p t b e' := by
  have hsequence := transferEffect_sequenceSound h
  have hconfig := transferEffect_config h
  obtain ⟨hstatus, ⟨m, hm⟩, hseq, hready, hfailed⟩ := he
  have hsound : ConfigSound p e' := ⟨m, hconfig.trans hm⟩
  have hrunning : statusFaulted e.status = false → b ≠ .failed := by
    rintro hrun rfl
    exact absurd (hfailed rfl).1 (by rw [hrun]; decide)
  cases h with
  | completed hrun hcommand w =>
    have hkept := commandEffect_statusSound hcommand hstatus
    refine ⟨hkept, hsound, hsequence hseq, ?_, fun hb => absurd hb (hrunning hrun)⟩
    rw [respond_status, commandEffect_ready hcommand]
    exact hready
  | faulted hrun a =>
    refine ⟨statusSound_onFault hstatus a, hsound, hsequence hseq, ?_, fun hb => absurd hb (hrunning hrun)⟩
    rw [statusReady_onFault]
    exact hready
  | refused | read | taken | strapped => exact ⟨hstatus, hsound, hsequence hseq, hready, hfailed⟩

/-! ### The build, reset, and a transfer -/

theorem blockSound_build {s : State} (hs : BlockSound s) (hb : s.bstate = .building) : BlockSound (build s) := by
  obtain ⟨hbuilding, -, hsound⟩ := (blockSound_iff s).1 hs
  have hengine : ∀ e ∈ engines s, e.status = 0 ∧ Pristine e ∧ ConfigSound s.params e := by
    intro e he
    obtain ⟨hstatus, hcache⟩ := hbuilding hb e he
    obtain ⟨-, hconfig, hsequence, -⟩ := hsound e he
    exact ⟨hstatus, pristine_of_sequenceSound hsequence hcache, hconfig⟩
  rcases build_cases s with ⟨hvalid, hbuild⟩ | ⟨-, hbuild⟩ <;> rw [hbuild, blockSound_iff]
  · refine ⟨nofun, fun _ => ⟨hvalid, rfl⟩, fun e' he' => ?_⟩
    rw [buildSucceeds, engines_mapEngines] at he'
    obtain ⟨e, he, rfl⟩ := List.mem_map.1 he'
    obtain ⟨hstatus, hpristine, hconfig⟩ := hengine e he
    refine ⟨?_, hconfig, sequenceSound_of_pristine (e := { e with status := statusSetReady e.status }) hpristine _,
      iff_of_true (statusReady_setReady _) rfl, nofun⟩
    rw [hstatus]
    exact statusSound_setReady statusSound_zero
  · refine ⟨nofun, nofun, fun e' he' => ?_⟩
    rw [buildFails, engines_mapEngines] at he'
    obtain ⟨e, he, rfl⟩ := List.mem_map.1 he'
    obtain ⟨hstatus, hpristine, hconfig⟩ := hengine e he
    refine ⟨?_, hconfig,
      sequenceSound_of_pristine (e := { e with status := statusSetFault .buildFail e.status }) hpristine _, ?_,
      fun _ => ⟨statusFaulted_setFault .., statusCause_setFault ..⟩⟩
    · rw [hstatus]
      exact statusSound_setFault _ statusSound_zero.1
    · rw [statusReady_setFault, hstatus]
      exact iff_of_false (by decide) nofun

/-- A block that has just left reset is sound, whatever its straps and its hosts' records are. -/
theorem blockSound_of_atReset {s : State} (hb : s.bstate = .building)
    (h : ∀ e ∈ engines s, ∃ strap observed, e = Engine.atReset strap s.params.nvSource observed) :
    BlockSound s := by
  refine (blockSound_iff s).2 ⟨fun _ e he => ?_, fun hbuilt => ?_, fun e he => ?_⟩
  · obtain ⟨strap, observed, rfl⟩ := h e he
    exact ⟨rfl, (pristine_atReset ..).2⟩
  · rw [hb] at hbuilt
    cases hbuilt
  · obtain ⟨strap, observed, rfl⟩ := h e he
    refine ⟨statusSound_zero, ⟨strap, rfl⟩, sequenceSound_of_pristine (pristine_atReset ..) _, ?_, ?_⟩
    · rw [hb]
      exact iff_of_false (by decide : ¬ statusReady 0 = true) nofun
    · rw [hb]
      exact nofun

theorem blockSound_resetBlock (s : State) : BlockSound (resetBlock s) := by
  refine blockSound_of_atReset rfl fun e he => ?_
  rw [engines_resetBlock] at he
  obtain ⟨e0, -, rfl⟩ := List.mem_map.1 he
  exact ⟨e0.strap, e0.observed, rfl⟩

theorem blockSound_servesOne {s t : State} (h : ServesOne s t) (hb : s.bstate ≠ .building) (hs : BlockSound s) :
    BlockSound t := by
  obtain ⟨-, hbuilt, hsound⟩ := (blockSound_iff s).1 hs
  have hkept := h.forall_engines hsound fun e e' heffect => transferEffect_engineSound heffect
  obtain ⟨htable, hbstate, hparams, -⟩ := h
  rw [blockSound_iff, htable, hbstate, hparams]
  exact ⟨fun hbuilding => absurd hbuilding hb, hbuilt, hkept⟩

/-- Settles O58: the build, an idle step, a reset and a transfer each keep the invariant. -/
theorem stepKeepsTheBlockSound : Obligations.StepKeepsTheBlockSound := by
  intro s t hs hstep
  rcases step_next_cases hstep with ⟨hb, rfl⟩ | ⟨hb, rfl | ⟨rest, -, rfl⟩ | hserves⟩
  · exact blockSound_build hs hb
  · exact hs
  · exact blockSound_resetBlock _
  · exact blockSound_servesOne hserves hb hs

/-! ### Reset -/

theorem mem_engines_reset {e : Engine} (h : e ∈ engines State.reset) :
    ∃ k, e = Engine.atReset (Config.strap k) Config.nvSource [] := by
  simp only [engines, State.reset, List.nil_append, List.mem_cons, List.mem_map] at h
  obtain rfl | ⟨k, -, rfl⟩ := h
  · exact ⟨0, rfl⟩
  · exact ⟨k + 1, rfl⟩

/-- Selecting dimension 0 of index 0, as `SETIDX 0` does, leaves an engine as reset left it (R35). -/
theorem selected_atReset (t : Table) (strap : Bool) (nv : Config.NvSource) (observed : List Response) :
    selected t (Engine.atReset strap nv observed) 0 0 = Engine.atReset strap nv observed := by
  have hentry := (pristine_atReset strap nv observed).2 0
  have hcache := setCache_cacheAt (Engine.atReset strap nv observed) 0
  have hacc : directAcc t 0 (0 : Word).toNat = 0 := directAcc_zero
  rw [hentry] at hcache
  rw [selected, hacc, hcache, normalizer_zero]
  rfl

/-- Settles O13: every engine of the reset state is `Engine.atReset`. -/
theorem resetGivesEveryRegisterItsValue : Obligations.ResetGivesEveryRegisterItsValue := by
  refine ⟨rfl, fun e he t => ?_⟩
  obtain ⟨k, rfl⟩ := mem_engines_reset he
  have hpristine := pristine_atReset (Config.strap k) Config.nvSource []
  obtain ⟨hfr, hprod⟩ := atReset_extraction (Config.strap k) Config.nvSource []
  exact ⟨rfl, rfl, hpristine.2, rfl, rfl, rfl, rfl, rfl, sequenceSound_of_pristine hpristine t, hfr, hprod,
    selected_atReset t _ _ _⟩

/-- Settles O59: the reset state is one that has just left reset. -/
theorem resetIsSound : Obligations.ResetIsSound := by
  refine ⟨blockSound_of_atReset rfl fun e he => ?_, fun e he => ?_⟩
  · obtain ⟨k, rfl⟩ := mem_engines_reset he
    exact ⟨Config.strap k, [], rfl⟩
  · obtain ⟨k, rfl⟩ := mem_engines_reset he
    exact atReset_extraction _ _ _

end Sys2Proof.Proofs.Block

/-! ## The transfers of one engine (spec/20_memory.md R65, R67, R68, spec/70_reset_and_hazards.md R273)

A transfer with engine `k` replaces entry `k` of the list of engines, and what a command puts there is a function of the table,
the parameters and that engine alone. So it leaves the other engines as they were, and commands of different engines commute. -/
namespace Sys2Proof.Proofs.Ports

open Sys2Proof Sys2Proof.Machine Sys2Proof.Proofs.Transfer

/-! ### The next action of the host -/

@[simp] theorem engines_withHost (s : State) (l : List HostEvent) : engines { s with host := l } = engines s := rfl

/-- The host's list plays no part in which engine is served. -/
theorem focus_withHost (k : Nat) (s : State) (l : List HostEvent) :
    focus k { s with host := l } = (focus k s).map fun s1 => { s1 with host := l } := by
  unfold focus
  rw [engines_withHost]
  cases (engines s).drop k <;> rfl

/-- With the build over the step performs the picked action. -/
theorem step_of_pick {s : State} {a : HostEvent} {rest : List HostEvent} (hb : s.bstate ≠ .building)
    (hpick : pick s s.host = some (a, rest)) : step s = perform { s with host := rest } a := by
  rcases step_cases s with ⟨hbuilding, -⟩ | ⟨-, hstep⟩
  · exact absurd hbuilding hb
  · rcases hostTransfer_cases s with ⟨hnone, -⟩ | ⟨a', rest', hpick', htransfer⟩
    · cases hnone.symm.trans hpick
    · cases hpick'.symm.trans hpick
      exact hstep.trans htransfer

/-- A command is accepted with the build over and no response held (R80, R296). -/
theorem pick_command {s : State} {k : Nat} {e : Engine} (hb : s.bstate ≠ .building)
    (he : (engines s)[k]? = some e) (hrsp : e.rsp = none) (c : Command) (rest : List HostEvent) :
    pick s (.command k c :: rest) = some (.command k c, rest) :=
  pick_ready (by simp [actionReady, he, cmdReady, hb, hrsp])

theorem transferCommand_of_focus {k : Nat} {s s1 : State} (hfocus : focus k s = some s1) (c : Command) :
    transferCommand k c s = serve c s1 := by
  rw [transferCommand, hfocus]

theorem serve_of_decode {c : Command} {i : Instr} (hc : decode c = .ok i) (s : State) : serve c s = exec i s := by
  rw [serve, hc]

/-- Settles O7: the presented command is the one that is picked, and a picked command is decoded and executed. -/
theorem stepRunsTheDecodedCommand : Obligations.StepRunsTheDecodedCommand := by
  intro s s1 k c rest i hb hfocus hc
  have hrun (hpick : pick s s.host = some (.command k c, rest)) : step s = exec i { s1 with host := rest } := by
    have hfocus' : focus k { s with host := rest } = some { s1 with host := rest } := by
      rw [focus_withHost, hfocus, Option.map_some]
    calc step s = transferCommand k c { s with host := rest } := step_of_pick hb hpick
      _ = serve c { s1 with host := rest } := transferCommand_of_focus hfocus' c
      _ = exec i { s1 with host := rest } := serve_of_decode hc _
  obtain ⟨-, -, he, -⟩ := focus_eq_some hfocus
  exact ⟨fun hhost hrsp => hrun (hhost ▸ pick_command hb he hrsp c rest), hrun⟩

/-! ### One engine of the block -/

/-- `t` is `s` with engine `k` replaced by `e`. -/
structure EngineReplaced (k : Nat) (e : Engine) (s t : State) : Prop where
  engines_eq : engines t = (engines s).set k e
  table_eq : t.table = s.table
  bstate_eq : t.bstate = s.bstate
  params_eq : t.params = s.params
  host_eq : t.host = s.host

theorem engineReplaced_of_focus {k : Nat} {s s1 : State} (hfocus : focus k s = some s1) (e : Engine) :
    EngineReplaced k e s { s1 with eng := e } := by
  obtain ⟨hengines, hno, -, hs1⟩ := focus_eq_some hfocus
  refine ⟨?_, by rw [hs1], by rw [hs1], by rw [hs1], by rw [hs1]⟩
  rw [← hengines, ← hno]
  simp [engines, engineNo]

/-- A transfer with engine `k`, or a change of its strap, replaces that engine. -/
theorem perform_replaces {s t : State} {k : Nat} {a : HostEvent}
    (ha : a = .take k ∨ (∃ c, a = .command k c) ∨ ∃ level, a = .strap k level) (h : perform s a = .next t) :
    ∃ e, EngineReplaced k e s t := by
  obtain rfl | ⟨c, rfl⟩ | ⟨level, rfl⟩ := ha
  · obtain ⟨s1, hfocus, rfl⟩ := transferResponse_next h
    exact ⟨_, engineReplaced_of_focus hfocus _⟩
  · obtain ⟨s1, hfocus, hserve⟩ := transferCommand_next h
    obtain ⟨e, rfl, -⟩ := serve_effect hserve
    exact ⟨e, engineReplaced_of_focus hfocus e⟩
  · obtain ⟨s1, hfocus, rfl⟩ := driveStrap_next h
    exact ⟨_, engineReplaced_of_focus hfocus _⟩

/-- Settles O56: the step replaces entry `k` of the list of engines. -/
theorem otherEnginesAreUntouched : Obligations.OtherEnginesAreUntouched := by
  intro s t k j a rest hb hjk hpick ha hstep
  rw [step_of_pick hb hpick] at hstep
  obtain ⟨e, hreplaced⟩ := perform_replaces ha hstep
  have hengines : engines t = (engines s).set k e := hreplaced.engines_eq
  rw [hengines]
  exact ⟨List.getElem?_set_ne hjk.symm, List.length_set⟩

/-! ### A command reads its own engine alone -/

/-- Engine `e` after it accepted `c`, in a block of which the command can see the table and the parameters only. -/
def afterCommand (c : Command) (t : Table) (p : Config.Params) (e : Engine) : Engine :=
  match serve c { params := p, bstate := .built, table := t, lower := [], eng := e, upper := [], host := [] } with
  | .next s => s.eng
  | .fault _ => e
  | .refused _ => e

/-- Neither the builder's state nor another engine nor the host has a part in a command (R68). -/
theorem serve_eq_afterCommand (c : Command) (s : State) :
    serve c s = .next { s with eng := afterCommand c s.table s.params s.eng } := by
  unfold afterCommand serve
  cases decode c with
  | error _ => rfl
  | ok i => cases i <;> rfl

/-- The step that accepts a command of engine `k`. -/
theorem step_command {s : State} {k : Nat} {e : Engine} {c : Command} {rest : List HostEvent}
    (hb : s.bstate ≠ .building) (he : (engines s)[k]? = some e) (hrsp : e.rsp = none)
    (hhost : s.host = .command k c :: rest) :
    ∃ t, step s = .next t ∧ EngineReplaced k (afterCommand c s.table s.params e) { s with host := rest } t := by
  have hstep := step_of_pick hb (hhost ▸ pick_command hb he hrsp c rest)
  cases hfocus : focus k { s with host := rest } with
  | none =>
    cases (List.getElem?_eq_none (focus_eq_none.1 hfocus)).symm.trans he
  | some s1 =>
    obtain ⟨-, -, he1, hs1⟩ := focus_eq_some hfocus
    cases he.symm.trans he1
    refine ⟨_, ?_, engineReplaced_of_focus hfocus _⟩
    calc step s = serve c s1 := hstep.trans (transferCommand_of_focus hfocus c)
      _ = .next { s1 with eng := afterCommand c s1.table s1.params s1.eng } := serve_eq_afterCommand c s1
      _ = .next { s1 with eng := afterCommand c s.table s.params s1.eng } := by rw [hs1]

/-- Two steps that accept a command each, of different engines: each engine becomes what its own command makes of it. -/
theorem two_commands {s : State} {k1 k2 : Nat} {e1 e2 : Engine} (c1 c2 : Command) (hb : s.bstate ≠ .building)
    (hk : k1 ≠ k2) (he1 : (engines s)[k1]? = some e1) (he2 : (engines s)[k2]? = some e2) (hrsp1 : e1.rsp = none)
    (hrsp2 : e2.rsp = none) :
    ∃ u t, step { s with host := [.command k1 c1, .command k2 c2] } = .next u ∧ step u = .next t ∧
      engines t = ((engines s).set k1 (afterCommand c1 s.table s.params e1)).set k2
        (afterCommand c2 s.table s.params e2) ∧
      t.table = s.table ∧ t.bstate = s.bstate ∧ t.params = s.params ∧ t.host = [] := by
  obtain ⟨u, hu, hru⟩ := step_command (s := { s with host := [.command k1 c1, .command k2 c2] }) hb he1 hrsp1 rfl
  have hbu : u.bstate ≠ .building := by rw [hru.bstate_eq]; exact hb
  have heu : (engines u)[k2]? = some e2 := by
    rw [hru.engines_eq, List.getElem?_set_ne hk]
    exact he2
  obtain ⟨t, ht, hrt⟩ := step_command hbu heu hrsp2 hru.host_eq
  refine ⟨u, t, hu, ht, ?_, hrt.table_eq.trans hru.table_eq, hrt.bstate_eq.trans hru.bstate_eq,
    hrt.params_eq.trans hru.params_eq, hrt.host_eq⟩
  have hengines : engines t = (engines u).set k2 (afterCommand c2 u.table u.params e2) := hrt.engines_eq
  rw [hengines, hru.engines_eq, hru.table_eq, hru.params_eq, engines_withHost, engines_withHost]

/-- Settles O57: in either order entries `k1` and `k2` of the list of engines are set, each to what its own command makes. -/
theorem commandsOfDifferentEnginesCommute : Obligations.CommandsOfDifferentEnginesCommute := by
  intro s k1 k2 e1 e2 c1 c2 hb hk he1 he2 hrsp1 hrsp2
  obtain ⟨u, t, hu, ht, hengines, htable, hbstate, hparams, hhost⟩ := two_commands c1 c2 hb hk he1 he2 hrsp1 hrsp2
  obtain ⟨u', t', hu', ht', hengines', htable', hbstate', hparams', hhost'⟩ :=
    two_commands c2 c1 hb hk.symm he2 he1 hrsp2 hrsp1
  refine ⟨u, t, u', t', hu, ht, hu', ht', ?_, htable.trans htable'.symm, hbstate.trans hbstate'.symm,
    hparams.trans hparams'.symm, hhost, hhost'⟩
  rw [hengines, hengines', List.set_comm _ _ hk]

end Sys2Proof.Proofs.Ports

/-! ## A selection made twice (spec/20_memory.md R65)

A selection leaves the engine `loadedAt` a point, and of such an engine the same selection makes that engine again. -/
namespace Sys2Proof.Proofs.Selection

open Sys2Proof Sys2Proof.Machine Sys2Proof.Proofs.Transfer Sys2Proof.Proofs.Block

/-! ### An engine that is loaded at a point -/

section loaded

variable {t : Table} {e e' : Engine} {d : Dim} {n v status : Word}

theorem setCache_loadedAt : setCache (loadedAt e d n v status) d { val := v, idx := n } = loadedAt e d n v status := by
  rw [← cacheAt_loadedAt_same e d n v status, setCache_cacheAt]

theorem load_loadedAt (hsample : f64GeOne (normalizer v) = false) :
    load (loadedAt e d n v status) d = .ok (loadedAt e d n v status) := by
  simp only [load, cacheAt_loadedAt_same, hsample]
  rfl

theorem refreshLoad_loadedAt (hsample : f64GeOne (normalizer v) = false) :
    refreshLoad t (loadedAt e d n v status) d n = .ok (loadedAt e d n v status) := by
  have hrefresh : refresh t (loadedAt e d n v status) d n = .ok (loadedAt e d n v status) := by
    simp only [refresh, cacheAt_loadedAt_same, if_true]
  rw [refreshLoad, hrefresh]
  exact load_loadedAt hsample

theorem recomputeLoad_loadedAt (hv : v = directAcc t d n.toNat) (hlt : v.toNat < 2 ^ 63)
    (hsample : f64GeOne (normalizer v) = false) :
    recomputeLoad t (loadedAt e d n v status) d n = .ok (loadedAt e d n v status) := by
  have hrecompute : recompute t (loadedAt e d n v status) d n = .ok (loadedAt e d n v status) := by
    rw [recompute, ← hv, storeAcc, if_neg (Nat.not_le.2 hlt), setCache_loadedAt]
  rw [recomputeLoad, hrecompute]
  exact load_loadedAt hsample

theorem seek_of_recomputeLoad {k : Nat} (hk : k < 2 ^ 63)
    (h : recomputeLoad t { e with idx := BitVec.ofNat 64 k, dim := 0 } 0 (BitVec.ofNat 64 k) = .ok e') :
    seek t e k = .ok (e', 0) := by
  rw [seek, if_neg (Nat.not_le.2 hk), h]

/-! ### The same selection again, on the engine with its response -/

theorem seek_again {k : Nat} {w : Word} (h : seek t e k = .ok (e', w)) :
    e'.status = e.status ∧ seek t (respond e' w) k = .ok (respond e' w, w) := by
  obtain ⟨hk, rfl, hseek⟩ := seek_ok h
  obtain ⟨e1, hrecompute, hload⟩ := recomputeLoad_ok hseek
  obtain ⟨hlt, rfl⟩ := recompute_ok hrecompute
  obtain ⟨hsample, rfl⟩ := load_setCache_ok (status := e.status) hload
  exact ⟨rfl, seek_of_recomputeLoad hk (recomputeLoad_loadedAt (e := respond e 0) rfl hlt hsample)⟩

theorem refreshLoad_again (h : refreshLoad t { e with dim := d } d e.idx = .ok e') (w : Word) :
    e'.status = e.status ∧ refreshLoad t { respond e' w with dim := d } d e'.idx = .ok (respond e' w) := by
  obtain ⟨e1, hrefresh, hload⟩ := refreshLoad_ok h
  obtain ⟨v, rfl, -⟩ := refresh_ok_setCache hrefresh
  obtain ⟨hsample, rfl⟩ := load_setCache_ok (status := e.status) hload
  exact ⟨rfl, refreshLoad_loadedAt (e := respond e w) hsample⟩

end loaded

/-! ### The commands -/

/-- Only a command that completes answers without an error. -/
theorem answer_of_okResponse {s t : State} {body : Except Abort (Engine × Word)} {w : Word}
    (h : answer s body = .next t) (hrsp : t.eng.rsp = okResponse w) :
    statusFaulted s.eng.status = false ∧ ∃ e, body = .ok (e, w) ∧ t = { s with eng := respond e w } := by
  rcases answer_eq s body with ⟨-, heq⟩ | ⟨hrun, e, w', hbody, heq⟩ | ⟨-, a, -, heq⟩
  · cases heq.symm.trans h
    cases hrsp
  · cases heq.symm.trans h
    cases hrsp
    exact ⟨hrun, e, hbody, rfl⟩
  · cases heq.symm.trans h
    cases hrsp

/-- A command that makes of an engine that engine, with the response it holds, leaves the block as it is. -/
theorem answer_again {s : State} {e : Engine} {w : Word} {body : Except Abort (Engine × Word)}
    (hrun : statusFaulted e.status = false) (hbody : body = .ok (respond e w, w)) :
    answer { s with eng := respond e w } body = .next { s with eng := respond e w } := by
  rw [hbody, answer_ok hrun]
  rfl

theorem exec_setdim_of_dim {a : Word} {d : Dim} (hd : dimOperand a = some d) (s : State) :
    exec (.setdim a) s =
      answer s ((refreshLoad s.table { s.eng with dim := d } d s.eng.idx).map fun e => (e, 0)) := by
  simp only [exec, execSetdim, hd]
  cases refreshLoad s.table { s.eng with dim := d } d s.eng.idx <;> rfl

theorem exec_setdim_of_none {a : Word} (hd : dimOperand a = none) (s : State) :
    exec (.setdim a) s = answer s (.error (raised .dimRange)) := by
  simp only [exec, execSetdim, hd]

theorem setidx_again {s t : State} {a : Word} (h : exec (.setidx a) s = .next t)
    (hrsp : t.eng.rsp = okResponse 0) : exec (.setidx a) t = .next t := by
  obtain ⟨hrun, e, hseek, rfl⟩ := answer_of_okResponse h hrsp
  obtain ⟨hstatus, hagain⟩ := seek_again hseek
  exact answer_again (hstatus ▸ hrun) hagain

theorem setdim_again {s t : State} {a : Word} (h : exec (.setdim a) s = .next t)
    (hrsp : t.eng.rsp = okResponse 0) : exec (.setdim a) t = .next t := by
  cases hd : dimOperand a with
  | none =>
    rw [exec_setdim_of_none hd] at h
    obtain ⟨-, e, hbody, -⟩ := answer_of_okResponse h hrsp
    cases hbody
  | some d =>
    rw [exec_setdim_of_dim hd] at h ⊢
    obtain ⟨hrun, e, hbody, rfl⟩ := answer_of_okResponse h hrsp
    cases hload : refreshLoad s.table { s.eng with dim := d } d s.eng.idx with
    | error f =>
      rw [hload] at hbody
      cases hbody
    | ok e1 =>
      rw [hload] at hbody
      cases hbody
      obtain ⟨hstatus, hagain⟩ := refreshLoad_again hload 0
      exact answer_again (hstatus ▸ hrun) (congrArg (Except.map _) hagain)

/-- Settles O35: the engine that a successful selection leaves is one that the selection keeps. -/
theorem selectionsAreIdempotent : Obligations.SelectionsAreIdempotent := by
  rintro s t a i (rfl | rfl) hexec hrsp
  · exact setidx_again hexec hrsp
  · exact setdim_again hexec hrsp

end Sys2Proof.Proofs.Selection

/-! ## The encoder and the decoder (spec/30_encoding.md R80 to R92)

A command decodes exactly when its word has the shape of an encoded word and the operand halves that must be 0 are 0; then the
opcode and the selector name the command. Both directions of the round trip, and the list of R88, are read off from that. -/
namespace Sys2Proof.Proofs.Encoding

open Sys2Proof Sys2Proof.Machine Sys2Proof.Proofs.Ports
open Sys2Proof.Laws.EncodedWordShape (Shape Statement)

/-! ### The fields of a command word, as numbers -/

theorem opcOf_toNat (cw : Half) : (opcOf cw).toNat = cw.toNat % 256 := by
  simp [opcOf]

theorem selOf_toNat (cw : Half) : (selOf cw).toNat = cw.toNat / 256 % 16 := by
  simp [selOf, Nat.shiftRight_eq_div_pow]

theorem rsvOf_toNat (cw : Half) : (rsvOf cw).toNat = cw.toNat / 4096 := by
  have hcw : cw.toNat < 2 ^ 32 := cw.isLt
  simp only [rsvOf, BitVec.extractLsb'_toNat, Nat.shiftRight_eq_div_pow]
  omega

theorem upperHalf_eq_zero_iff (w : Word) : upperHalf w = 0 ↔ w.toNat < 2 ^ 32 := by
  have hw : w.toNat < 2 ^ 64 := w.isLt
  rw [← BitVec.toNat_inj, upperHalf, BitVec.extractLsb'_toNat, Nat.shiftRight_eq_div_pow]
  show w.toNat / 2 ^ 32 % 2 ^ 32 = 0 ↔ _
  omega

/-- The three fields make up the word (R82). -/
theorem word_eq_of_fields {v w : Half} (hopc : opcOf v = opcOf w) (hsel : selOf v = selOf w) (hrsv : rsvOf v = rsvOf w) :
    v = w := by
  have hopc' := congrArg BitVec.toNat hopc
  have hsel' := congrArg BitVec.toNat hsel
  have hrsv' := congrArg BitVec.toNat hrsv
  rw [opcOf_toNat, opcOf_toNat] at hopc'
  rw [selOf_toNat, selOf_toNat] at hsel'
  rw [rsvOf_toNat, rsvOf_toNat] at hrsv'
  exact BitVec.eq_of_toNat_eq (by omega)

theorem shape_encodeWord (i : Instr) : Shape (encodeWord i) := by
  have hshape : Statement i := by
    cases i with
    | getdimcnt => exact Laws.EncodedWordShape.getdimcnt
    | setidx a => exact Laws.EncodedWordShape.setidx a
    | advidx => exact Laws.EncodedWordShape.advidx
    | setdim a => exact Laws.EncodedWordShape.setdim a
    | nextval => exact Laws.EncodedWordShape.nextval
    | nextuint a b => exact Laws.EncodedWordShape.nextuint a b
    | nextdbl a b => exact Laws.EncodedWordShape.nextdbl a b
    | seeddims a => exact Laws.EncodedWordShape.seeddims a
    | tblrd a b => exact Laws.EncodedWordShape.tblrd a b
    | rdregIdx => exact Laws.EncodedWordShape.rdregIdx
    | rdregDim => exact Laws.EncodedWordShape.rdregDim
    | rdregAcc => exact Laws.EncodedWordShape.rdregAcc
    | rdregFr => exact Laws.EncodedWordShape.rdregFr
    | rdregProd => exact Laws.EncodedWordShape.rdregProd
    | rdregStatus => exact Laws.EncodedWordShape.rdregStatus
    | rdregConfig => exact Laws.EncodedWordShape.rdregConfig
    | rdregCval a => exact Laws.EncodedWordShape.rdregCval a
    | rdregCidx a => exact Laws.EncodedWordShape.rdregCidx a
  exact hshape

/-! ### The decoder -/

/-- The operand halves that R83 wants 0 are 0: checks 5 and 6 of R89. -/
def OperandsLegal (c : Command) : Prop :=
  (opcOf c.cw = 0x06 → upperHalf c.a = 0 ∧ upperHalf c.b = 0) ∧ (opcOf c.cw = 0x08 → upperHalf c.a = 0)

/-- The checks of R89 pass exactly for the words of the right shape with legal operands. -/
theorem decode_eq_ok_iff {c : Command} {i : Instr} :
    decode c = .ok i ↔ Shape c.cw ∧ OperandsLegal c ∧ decodeOpcode c = .ok i := by
  have hopc0 : opcOf c.cw = 0x00 ↔ (opcOf c.cw).toNat = 0 := BitVec.toNat_inj.symm
  simp only [decode, Shape, OperandsLegal, hopc0]
  constructor
  · intro h
    split_ifs at h with hopc hrsv hsel hsel9 hab ha
    simp only [not_and, not_or, not_not, ne_eq, Nat.not_le] at hopc hrsv hsel hsel9 hab ha
    refine ⟨⟨hrsv, by omega, by omega, hsel, ?_⟩, ⟨hab, ha⟩, h⟩
    by_cases hA : opcOf c.cw = 0x0A
    · exact Nat.le_of_lt_succ (hsel9 hA)
    · rw [hsel hA]
      decide
  · rintro ⟨⟨hrsv, hpos, hle, hsel, hsel8⟩, ⟨hab, ha⟩, h⟩
    rw [if_neg (by omega), if_neg (not_not.2 hrsv), if_neg fun ⟨hne, h0⟩ => h0 (hsel hne),
      if_neg fun ⟨_, h9⟩ => by omega, if_neg fun ⟨h6, h0⟩ => h0.elim (· (hab h6).1) (· (hab h6).2),
      if_neg fun ⟨h8, h0⟩ => h0 (ha h8), h]

/-- Every selector up to 8 names a register (R87). -/
theorem exists_decodeSelector {sel : BitVec 4} (h : sel.toNat ≤ 8) (a : Word) : ∃ i, decodeSelector sel a = .ok i := by
  unfold decodeSelector
  split
  case h_10 =>
    simp only [imp_false] at *
    omega
  all_goals exact ⟨_, rfl⟩

/-- Every word of the right shape names a command (R86). -/
theorem exists_decodeOpcode {c : Command} (h : Shape c.cw) : ∃ i, decodeOpcode c = .ok i := by
  obtain ⟨-, hpos, hle, -, hsel⟩ := h
  unfold decodeOpcode
  split
  case h_10 => exact exists_decodeSelector hsel c.a
  case h_11 =>
    simp only [imp_false] at *
    omega
  all_goals exact ⟨_, rfl⟩

/-- The register commands carry their selector and the opcode of `RDREG`, and none has an operand half that must be 0. -/
theorem decodeSelector_ok {sel : BitVec 4} {a : Word} {i : Instr} (h : decodeSelector sel a = .ok i) :
    opcOf (encodeWord i) = 0x0A ∧ selOf (encodeWord i) = sel ∧ i.wellFormed = true := by
  have hsel {n : Nat} (hn : sel.toNat = n) : sel = BitVec.ofNat 4 n := (BitVec.toNat_eq_nat.1 hn).2
  unfold decodeSelector at h
  split at h
  all_goals cases h
  all_goals exact ⟨by simp [encodeWord, opcOf], by simp [encodeWord, selOf, hsel ‹sel.toNat = _›], rfl⟩

/-- The opcode names a command that is encoded with it, and that is well formed when the operands are legal. -/
theorem decodeOpcode_ok {c : Command} {i : Instr} (h : decodeOpcode c = .ok i) :
    opcOf (encodeWord i) = opcOf c.cw ∧ (opcOf c.cw = 0x0A → selOf (encodeWord i) = selOf c.cw) ∧
      (i.wellFormed = true ↔ OperandsLegal c) := by
  have hopc {n : Nat} (hn : (opcOf c.cw).toNat = n) : opcOf c.cw = BitVec.ofNat 8 n := (BitVec.toNat_eq_nat.1 hn).2
  unfold decodeOpcode at h
  split at h
  case h_10 heq =>
    obtain ⟨hA, hsel, hwf⟩ := decodeSelector_ok h
    exact ⟨hA.trans (hopc heq).symm, fun _ => hsel, iff_of_true hwf (by simp [OperandsLegal, hopc heq])⟩
  all_goals cases h
  all_goals
    rw [OperandsLegal, hopc ‹(opcOf c.cw).toNat = _›]
    simp [encodeWord, opcOf, Instr.wellFormed]

/-! ### The round trip -/

theorem decodeOpcode_encode (i : Instr) : decodeOpcode (encode i) = .ok i := by
  cases i <;> simp [decodeOpcode, decodeSelector, encode, encodeWord, encodeA, encodeB, opcOf, selOf]

/-- Settles O1: the encoded word passes the checks on the word, and a well-formed command those on the operands. -/
theorem encodedCommandsDecodeBack : Obligations.EncodedCommandsDecodeBack := by
  intro i hwf
  have hname : decodeOpcode (encode i) = .ok i := decodeOpcode_encode i
  obtain ⟨-, -, hlegal⟩ := decodeOpcode_ok hname
  exact decode_eq_ok_iff.2 ⟨shape_encodeWord i, hlegal.1 hwf, hname⟩

/-- Settles O2: the presented word and the encoded one agree in each field. -/
theorem decodedCommandsHaveOneWord : Obligations.DecodedCommandsHaveOneWord := by
  intro c i hdecode
  obtain ⟨⟨hrsv, -, -, hsel, -⟩, hops, hname⟩ := decode_eq_ok_iff.1 hdecode
  obtain ⟨hrsv', -, -, hsel', -⟩ := shape_encodeWord i
  obtain ⟨hopc, hselA, hlegal⟩ := decodeOpcode_ok hname
  refine ⟨hlegal.2 hops, word_eq_of_fields hopc ?_ (hrsv'.trans hrsv.symm)⟩
  by_cases hA : opcOf c.cw = 0x0A
  · exact hselA hA
  · exact (hsel' (hopc ▸ hA)).trans (hsel hA).symm

/-! ### What is illegal (R88) -/

/-- R88 lists exactly the commands that do not pass the checks of R89. -/
theorem illegalCommand_iff (c : Command) : IllegalCommand c ↔ ¬ (Shape c.cw ∧ OperandsLegal c) := by
  have hopc (n : BitVec 8) : opcOf c.cw = n ↔ c.cw.toNat % 256 = n.toNat := by
    rw [← BitVec.toNat_inj, opcOf_toNat]
  have hsel : selOf c.cw = 0 ↔ c.cw.toNat / 256 % 16 = 0 := by rw [← BitVec.toNat_inj, selOf_toNat]; rfl
  have hrsv : rsvOf c.cw = 0 ↔ c.cw.toNat / 4096 = 0 := by rw [← BitVec.toNat_inj, rsvOf_toNat]; rfl
  simp only [Shape, OperandsLegal, IllegalCommand, ne_eq, hopc, hsel, hrsv, upperHalf_eq_zero_iff, opcOf_toNat, selOf_toNat,
    BitVec.reduceToNat]
  omega

theorem exists_decode_of_legal {c : Command} (h : ¬ IllegalCommand c) : ∃ i, decode c = .ok i := by
  obtain ⟨hshape, hops⟩ := not_not.1 (mt (illegalCommand_iff c).2 h)
  obtain ⟨i, hname⟩ := exists_decodeOpcode hshape
  exact ⟨i, decode_eq_ok_iff.2 ⟨hshape, hops, hname⟩⟩

theorem serve_of_illegal {c : Command} (h : IllegalCommand c) (s : State) :
    serve c s = answer s (.error (raised .illegal)) := by
  cases hdecode : decode c with
  | ok i =>
    obtain ⟨hshape, hops, -⟩ := decode_eq_ok_iff.1 hdecode
    exact absurd ⟨hshape, hops⟩ ((illegalCommand_iff c).1 h)
  | error r => rw [serve, hdecode]

theorem statusReserved_setFault (c : FaultCode) (w : Word) :
    statusReserved (statusSetFault c w) = statusReserved w := by
  rw [statusSetFault, Block.statusReserved_or, Block.statusReserved_or, Block.statusReserved_cause]
  unfold statusReserved
  rw [BitVec.and_assoc, (by decide : ~~~0xF00#64 &&& 0xFFFFFFFFFFFFF0F8#64 = 0xFFFFFFFFFFFFF0F8#64),
    (by decide : 0x2#64 &&& 0xFFFFFFFFFFFFF0F8#64 = 0)]
  simp

/-- Fault entry by a command that has not flagged `WRAP` (R252). -/
theorem faultEntry_onFault (e : Engine) (c : FaultCode) : FaultEntry e (onFault e (raised c)) (faultNumber c) false :=
  ⟨rfl, statusFaulted_setFault c e.status, statusCause_setFault c e.status,
    (statusWrap_setFault c e.status).trans (Bool.or_false _).symm, statusReady_setFault c e.status,
    statusReserved_setFault c e.status⟩

/-- Settles O3: what R88 lists fails a check, and what passes the checks names a command. -/
theorem illegalEncodingsFault : Obligations.IllegalEncodingsFault := by
  refine ⟨fun s c hrun hillegal => ?_, fun c => exists_decode_of_legal⟩
  exact ⟨_, (serve_of_illegal hillegal s).trans (answer_error hrun), faultEntry_onFault s.eng .illegal⟩

/-- Settles O4: the encodings are computed, and decoded by the round trip. -/
theorem exampleEncodings : Obligations.ExampleEncodings :=
  ⟨rfl, encodedCommandsDecodeBack (.setidx 32768) rfl,
    rfl, encodedCommandsDecodeBack (.nextuint 10 20) rfl,
    rfl, encodedCommandsDecodeBack (.nextdbl 0xBFF0000000000000 0x3FF0000000000000) rfl,
    rfl, encodedCommandsDecodeBack (.rdregCval 3) rfl,
    fun _ _ => by simp [decode, opcOf],
    fun _ _ => by simp [decode, opcOf, selOf, rsvOf],
    fun _ _ => by simp [decode, opcOf, rsvOf]⟩

/-! ### Operands that are not read (R83) -/

/-- Only `NEXTUINT`, `NEXTDBL` and `TBLRD` read `B`. -/
theorem decode_ignores_b {cw : Half} (h6 : (opcOf cw).toNat ≠ 6) (h7 : (opcOf cw).toNat ≠ 7)
    (h9 : (opcOf cw).toNat ≠ 9) (a b b' : Word) :
    decode { cw := cw, a := a, b := b } = decode { cw := cw, a := a, b := b' } := by
  have hcheck : opcOf cw ≠ 0x06 := fun h => h6 (congrArg BitVec.toNat h)
  have hname : decodeOpcode { cw := cw, a := a, b := b } = decodeOpcode { cw := cw, a := a, b := b' } := by
    unfold decodeOpcode
    dsimp only
    split
    case h_6 heq => exact absurd heq h6
    case h_7 heq => exact absurd heq h7
    case h_9 heq => exact absurd heq h9
    all_goals rfl
  simp only [decode, hcheck, false_and, if_false, hname]

/-- Only the reads of the cache file name a dimension. -/
theorem decodeSelector_ignores_a {sel : BitVec 4} (h : sel.toNat < 7) (a a' : Word) :
    decodeSelector sel a = decodeSelector sel a' := by
  unfold decodeSelector
  split
  case h_8 | h_9 => omega
  all_goals rfl

/-- `GETDIMCNT`, `ADVIDX`, `NEXTVAL` and the reads of a register that is not in the cache file do not read `A` either. -/
theorem decode_ignores_operands {cw : Half}
    (hopc : (opcOf cw).toNat = 1 ∨ (opcOf cw).toNat = 3 ∨ (opcOf cw).toNat = 5 ∨
      (opcOf cw).toNat = 10 ∧ (selOf cw).toNat < 7) (a b a' b' : Word) :
    decode { cw := cw, a := a, b := b } = decode { cw := cw, a := a', b := b' } := by
  have h6 : opcOf cw ≠ 0x06 := fun h => by simp [h] at hopc
  have h8 : opcOf cw ≠ 0x08 := fun h => by simp [h] at hopc
  have hname : decodeOpcode { cw := cw, a := a, b := b } = decodeOpcode { cw := cw, a := a', b := b' } := by
    unfold decodeOpcode
    dsimp only
    split
    case h_1 | h_3 | h_5 | h_11 => rfl
    case h_10 => exact decodeSelector_ignores_a (by omega) a a'
    all_goals omega
  simp only [decode, h6, h8, false_and, if_false, hname]

/-- Settles O6: no opcode or selector of these words is one that reads the operand. -/
theorem unusedOperandsIgnored : Obligations.UnusedOperandsIgnored := by
  refine ⟨fun cw a b a' b' hcw => decode_ignores_operands ?_ a b a' b',
    fun cw a b b' hcw => decode_ignores_b ?_ ?_ ?_ a b b'⟩
  · obtain rfl | rfl | rfl | rfl | rfl | rfl | rfl | rfl | rfl | rfl := hcw <;> decide
  all_goals obtain rfl | rfl | rfl | rfl | rfl := hcw <;> decide

/-! ### The assembler (R90, R91) -/

/-- Settles O5: each line is assembled by evaluation, `reseed` for an open index. -/
theorem assemblyExamples : Obligations.AssemblyExamples := by
  refine ⟨?_, ?_, ?_, ?_, ?_, ?_, ?_, ?_, ?_, ?_, fun i => rfl⟩
  all_goals decide +kernel

/-! ### Responses (R80, R85) -/

/-- Settles O10: a held response makes the taking the picked action. -/
theorem takenResponseFreesThePort : Obligations.TakenResponseFreesThePort := by
  intro s s1 k rest r hb hhost hfocus hrsp
  obtain ⟨-, -, he, -⟩ := focus_eq_some hfocus
  have hpick : pick s s.host = some (.take k, rest) := by
    rw [hhost]
    exact pick_ready (by simp [actionReady, he, rspValid, hrsp])
  have hfocus' : focus k { s with host := rest } = some { s1 with host := rest } := by
    rw [focus_withHost, hfocus, Option.map_some]
  rw [step_of_pick hb hpick, perform, transferResponse, hfocus']
  simp [hrsp]

/-- The form of a response (R85). -/
def ResponseForm (r : Response) : Prop :=
  (r.err = false ∧ r.cause = 0) ∨ (r.err = true ∧ 1 ≤ r.cause.toNat ∧ r.cause.toNat ≤ 7 ∧ r.data = 0)

theorem responseForm_ok (w : Word) : ResponseForm { err := false, cause := 0, data := w } := .inl ⟨rfl, rfl⟩

theorem responseForm_error (c : FaultCode) : ResponseForm { err := true, cause := faultNumber c, data := 0 } := by
  refine .inr ⟨rfl, ?_, ?_, rfl⟩ <;> cases c <;> decide

/-- The served engine answers with a response of that form, and nothing else of the block changes. -/
def AnswersWithForm (s : State) (o : Host.Outcome State Fault Refusal) : Prop :=
  ∃ e r, o = .next { s with eng := e } ∧ e.rsp = some r ∧ ResponseForm r

theorem answersWithForm_answer (s : State) (body : Except Abort (Engine × Word)) : AnswersWithForm s (answer s body) := by
  rcases answer_eq s body with ⟨-, heq⟩ | ⟨-, e, w, -, heq⟩ | ⟨-, a, -, heq⟩
  · exact ⟨_, _, heq, refuse_rsp s.eng, responseForm_error .halted⟩
  · exact ⟨_, _, heq, respond_rsp e w, responseForm_ok w⟩
  · exact ⟨_, _, heq, onFault_rsp s.eng a, responseForm_error a.code⟩

theorem answersWithForm_exec (i : Instr) (s : State) : AnswersWithForm s (exec i s) := by
  cases i with
  | rdregStatus => exact ⟨_, _, rfl, respond_rsp s.eng s.eng.status, responseForm_ok _⟩
  | rdregConfig => exact ⟨_, _, rfl, respond_rsp s.eng s.eng.config, responseForm_ok _⟩
  | _ => exact answersWithForm_answer s _

/-- Settles O11: what does not decode is answered like any command. -/
theorem everyCommandGetsOneResponse : Obligations.EveryCommandGetsOneResponse := by
  intro c s
  show AnswersWithForm s (serve c s)
  cases hdecode : decode c with
  | ok i =>
    rw [serve_of_decode hdecode]
    exact answersWithForm_exec i s
  | error r =>
    rw [serve, hdecode]
    exact answersWithForm_answer s _

end Sys2Proof.Proofs.Encoding

/-! ## The direction table (spec/40_table_builder.md R110 to R118)

The entry of a dimension at position `j` is a function of its parameters alone, and satisfies R113 and R114. On words the
triangular form of R118 says where the lowest one bit stands, and the two terms of R114 that are not shifted have theirs further
up. In an accumulator the entry at the highest selected position has the lowest one bit, so no other entry can cancel it. -/
namespace Sys2Proof.Proofs.Builder

open Sys2Proof Sys2Proof.Machine Sys2Proof.Proofs.GrayWalk Sys2Proof.Proofs.Encoding

/-! ### The parameters (R115) -/

/-- Checks 1 to 3 of R115 for one dimension, as the obligation spells them. -/
structure DimParamLegal (p : Config.DirParam) : Prop where
  degree : 1 ≤ p.s ∧ p.s ≤ 16
  coefficients : p.a < 2 ^ (p.s - 1)
  integers : ∀ k, 1 ≤ k → k ≤ p.s → p.init k % 2 = 1 ∧ p.init k < 2 ^ k

/-- The builder counts the initial integers from 0, R110 from 1. -/
theorem dimParamValid_iff (p : Config.DirParam) : dimParamValid p = true ↔ DimParamLegal p := by
  have hinit : (∀ k < p.s, p.init (k + 1) % 2 = 1 ∧ p.init (k + 1) < 2 ^ (k + 1)) ↔
      ∀ k, 1 ≤ k → k ≤ p.s → p.init k % 2 = 1 ∧ p.init k < 2 ^ k := by
    constructor
    · intro h k hpos hk
      obtain ⟨i, rfl⟩ := Nat.exists_eq_add_of_le' hpos
      exact h i hk
    · exact fun h k hk => h (k + 1) (Nat.succ_pos k) hk
  simp only [dimParamValid, Bool.and_eq_true, decide_eq_true_eq, List.all_eq_true, List.mem_range, hinit]
  exact ⟨fun ⟨⟨hdegree, hcoefficients⟩, hintegers⟩ => ⟨hdegree, hcoefficients, hintegers⟩,
    fun h => ⟨⟨h.degree, h.coefficients⟩, h.integers⟩⟩

theorem toList_eq_ofFn (ps : Config.DirParams) : ps.toList = List.ofFn fun i : Fin 31 => ps[i] := by
  rw [← Vector.toList_ofFn]
  exact congrArg Vector.toList Vector.ofFn_getElem.symm

theorem paramsValid_iff (ps : Config.DirParams) : paramsValid ps = true ↔
    (∀ i : Fin 31, DimParamLegal ps[i]) ∧ Function.Injective fun i : Fin 31 => (ps[i].s, ps[i].a) := by
  rw [paramsValid, toList_eq_ofFn, Bool.and_eq_true, List.all_eq_true, List.forall_mem_ofFn_iff, decide_eq_true_eq,
    List.map_ofFn, List.nodup_ofFn]
  simp only [dimParamValid_iff]
  rfl

theorem dimParamLegal_of_valid {ps : Config.DirParams} (h : paramsValid ps = true) (i : Fin 31) : DimParamLegal ps[i] := by
  obtain ⟨hlegal, -⟩ := (paramsValid_iff ps).1 h
  exact hlegal i

/-- Settles O18: the checks of one dimension, for every dimension, and distinct polynomials as injectivity. -/
theorem parameterValidationChecks : Obligations.ParameterValidationChecks := by
  intro ps
  rw [paramsValid_iff]
  constructor
  · rintro ⟨hlegal, hinj⟩
    exact ⟨fun i => (hlegal i).degree, fun i => (hlegal i).coefficients, fun i => (hlegal i).integers,
      fun i j hij => hinj.ne hij⟩
  · rintro ⟨hdegree, hcoefficients, hintegers, hdistinct⟩
    exact ⟨fun i => ⟨hdegree i, hcoefficients i, hintegers i⟩, fun i j h => not_imp_not.1 (hdistinct i j) h⟩

/-! ### The entries of the built table (R112 to R114) -/

/-- `V[d][j]` of a dimension with parameters `p` (R113, R114). -/
def rowEntry (p : Config.DirParam) (j : Nat) : Word := buildEntry p (buildBack p j) j

/-- The row built so far holds its entries, newest first. -/
theorem buildBack_getD (p : Config.DirParam) {i n : Nat} (h : i < n) :
    (buildBack p n).getD i 0 = rowEntry p (n - (i + 1)) := by
  induction n generalizing i with
  | zero => cases h
  | succ n ih =>
    cases i with
    | zero => rfl
    | succ i =>
      rw [buildBack, List.getD_cons_succ, ih (Nat.lt_of_succ_lt_succ h), Nat.add_sub_add_right]

theorem tblRead_zero (ps : Config.DirParams) (j : BitPos) : tblRead (buildTable ps) 0 j = buildDim0 j.val := by
  simp [tblRead, buildTable, buildRow0]

theorem tblRead_succ (ps : Config.DirParams) (i : Fin 31) (j : BitPos) :
    tblRead (buildTable ps) (BitVec.ofNat 5 (i.val + 1)) j = rowEntry ps[i] j.val := by
  have hd : (BitVec.ofNat 5 (i.val + 1)).toNat = i.val + 1 := by
    rw [BitVec.toNat_ofNat]
    omega
  have hj : 63 - (62 - j.val + 1) = j.val := by omega
  simp only [tblRead, buildTable, buildRow, hd, Vector.getElem_ofFn, Nat.add_eq_zero_iff, one_ne_zero, and_false, dite_false,
    Nat.add_sub_cancel, Fin.getElem_fin]
  rw [buildBack_getD _ (by omega : 62 - j.val < 63), hj]

/-- A dimension is 0, or has parameters. -/
theorem dim_cases (d : Dim) : d = 0 ∨ ∃ i : Fin 31, d = BitVec.ofNat 5 (i.val + 1) := by
  rcases Nat.eq_zero_or_pos d.toNat with h | h
  · exact .inl (BitVec.eq_of_toNat_eq h)
  · refine .inr ⟨⟨d.toNat - 1, by omega⟩, BitVec.eq_of_toNat_eq ?_⟩
    rw [BitVec.toNat_ofNat]
    show d.toNat = (d.toNat - 1 + 1) % 2 ^ 5
    omega

theorem buildDim0_toNat {j : Nat} (hj : j ≤ 62) : (buildDim0 j).toNat = 2 ^ (62 - j) := by
  have hlt : 2 ^ (62 - j) < 2 ^ 64 := Nat.pow_lt_pow_right (by decide) (by omega)
  rw [buildDim0, BitVec.toNat_shiftLeft, BitVec.toNat_ofNat, Nat.shiftLeft_eq]
  simpa using hlt

/-- Settles O19: the first row of the table is built without the parameters. -/
theorem dimensionZeroIsVanDerCorput : Obligations.DimensionZeroIsVanDerCorput := by
  intro ps j
  rw [tblRead_zero, buildDim0_toNat (by omega)]

/-- An integer below `2^(j+1)`, scaled to position `j`, stays below `2^63`. -/
theorem scaled_lt {m j : Nat} (hj : j ≤ 62) (hm : m < 2 ^ (j + 1)) : m * 2 ^ (62 - j) < 2 ^ 63 := by
  calc m * 2 ^ (62 - j) < 2 ^ (j + 1) * 2 ^ (62 - j) := Nat.mul_lt_mul_of_pos_right hm (Nat.two_pow_pos _)
    _ = 2 ^ 63 := by rw [← pow_add]; congr 1; omega

theorem rowEntry_initial {p : Config.DirParam} (hp : DimParamLegal p) {j : Nat} (hj : j ≤ 62) (hs : j < p.s) :
    (rowEntry p j).toNat = p.init (j + 1) * 2 ^ (62 - j) := by
  obtain ⟨-, hinit⟩ := hp.integers (j + 1) (Nat.succ_pos j) hs
  have hlt := scaled_lt hj hinit
  rw [rowEntry, buildEntry, if_pos hs, BitVec.toNat_ofNat, Nat.shiftLeft_eq]
  exact Nat.mod_eq_of_lt (hlt.trans (by decide))

/-- Settles O20: an initial entry is its scaled integer, which fits the word. -/
theorem initialEntriesAreScaledIntegers : Obligations.InitialEntriesAreScaledIntegers := by
  intro ps i j hvalid hs
  rw [tblRead_succ, rowEntry_initial (dimParamLegal_of_valid hvalid i) (by omega) hs]

/-- The recurrence reads entries of the same row (R114). -/
theorem rowEntry_recurrence {p : Config.DirParam} (hp : DimParamLegal p) {j : Nat} (hs : p.s ≤ j) :
    rowEntry p j = (List.range (p.s - 1)).foldl
      (fun w k => if p.a.testBit (p.s - 1 - (k + 1)) then w ^^^ rowEntry p (j - (k + 1)) else w)
      (rowEntry p (j - p.s) ^^^ (rowEntry p (j - p.s) >>> p.s)) := by
  obtain ⟨hpos, -⟩ := hp.degree
  have hback : (buildBack p j).getD (p.s - 1) 0 = rowEntry p (j - p.s) := by
    rw [buildBack_getD p (by omega), Nat.sub_add_cancel hpos]
  rw [rowEntry, buildEntry, if_neg (Nat.not_lt.2 hs), hback]
  refine List.foldl_ext _ _ _ fun w k hk => ?_
  have hk : k < p.s - 1 := List.mem_range.1 hk
  rw [buildBack_getD p (by omega), coefficient]

/-! ### Words by their lowest one bit -/

/-- Bit 63 and every bit below bit `p` are 0. -/
def MultipleBelow (p : Nat) (w : Word) : Prop := w.toNat < 2 ^ 63 ∧ w.toNat % 2 ^ p = 0

/-- Bit 63 is 0 and the lowest one bit is bit `p`. -/
def LowestOneAt (p : Nat) (w : Word) : Prop := w.toNat < 2 ^ 63 ∧ w.toNat % 2 ^ (p + 1) = 2 ^ p

theorem multipleBelow_zero (p : Nat) : MultipleBelow p 0#64 := ⟨by decide, Nat.zero_mod _⟩

theorem MultipleBelow.xor {p : Nat} {w v : Word} (hw : MultipleBelow p w) (hv : MultipleBelow p v) :
    MultipleBelow p (w ^^^ v) := by
  obtain ⟨hwlt, hw0⟩ := hw
  obtain ⟨hvlt, hv0⟩ := hv
  rw [MultipleBelow, BitVec.toNat_xor]
  exact ⟨Nat.xor_lt_two_pow hwlt hvlt, by rw [Nat.xor_mod_two_pow, hw0, hv0, Nat.xor_self]⟩

/-- The bits below the lowest one bit are 0. -/
theorem LowestOneAt.multipleBelow {p q : Nat} {w : Word} (hw : LowestOneAt p w) (hq : q ≤ p) : MultipleBelow q w := by
  obtain ⟨hlt, hlow⟩ := hw
  refine ⟨hlt, ?_⟩
  rw [← Nat.mod_mod_of_dvd _ (Nat.pow_dvd_pow 2 (Nat.le_succ_of_le hq)), hlow]
  exact Nat.mod_eq_zero_of_dvd (Nat.pow_dvd_pow 2 hq)

theorem LowestOneAt.ne_zero {p : Nat} {w : Word} (hw : LowestOneAt p w) : w ≠ 0#64 := by
  rintro rfl
  obtain ⟨-, hlow⟩ := hw
  exact (Nat.two_pow_pos p).ne ((Nat.zero_mod _).symm.trans hlow)

/-- A term whose one bits are all further up keeps the lowest one bit. -/
theorem LowestOneAt.xor {p : Nat} {w v : Word} (hw : LowestOneAt p w) (hv : MultipleBelow (p + 1) v) :
    LowestOneAt p (w ^^^ v) := by
  obtain ⟨hwlt, hlow⟩ := hw
  obtain ⟨hvlt, hv0⟩ := hv
  rw [LowestOneAt, BitVec.toNat_xor]
  exact ⟨Nat.xor_lt_two_pow hwlt hvlt, by rw [Nat.xor_mod_two_pow, hlow, hv0, Nat.xor_zero]⟩

theorem LowestOneAt.shiftRight {p s : Nat} {w : Word} (hw : LowestOneAt (p + s) w) : LowestOneAt p (w >>> s) := by
  obtain ⟨hlt, hlow⟩ := hw
  rw [LowestOneAt, BitVec.toNat_ushiftRight, Nat.shiftRight_eq_div_pow]
  refine ⟨(Nat.div_le_self _ _).trans_lt hlt, ?_⟩
  calc w.toNat / 2 ^ s % 2 ^ (p + 1) = w.toNat % (2 ^ s * 2 ^ (p + 1)) / 2 ^ s := (Nat.mod_mul_right_div_self ..).symm
    _ = w.toNat % 2 ^ (p + s + 1) / 2 ^ s := by rw [← pow_add]; congr 3; omega
    _ = 2 ^ p := by rw [hlow, pow_add, Nat.mul_div_cancel _ (Nat.two_pow_pos s)]

/-- A word has its lowest one bit at `p` exactly when it is an odd integer scaled by `2^p` (R118). -/
theorem lowestOneAt_iff {p : Nat} (hp : p ≤ 62) (w : Word) :
    LowestOneAt p w ↔ ∃ m, m % 2 = 1 ∧ m < 2 ^ (63 - p) ∧ w.toNat = m * 2 ^ p := by
  have hpow : 2 ^ (63 - p) * 2 ^ p = 2 ^ 63 := by rw [← pow_add, Nat.sub_add_cancel (by omega)]
  have hmod (m : Nat) : m * 2 ^ p % 2 ^ (p + 1) = m % 2 * 2 ^ p := by rw [pow_succ', Nat.mul_mod_mul_right]
  constructor
  · intro h
    obtain ⟨-, hmultiple⟩ := h.multipleBelow le_rfl
    obtain ⟨hlt, hlow⟩ := h
    obtain ⟨m, hm⟩ := Nat.dvd_of_mod_eq_zero hmultiple
    rw [Nat.mul_comm] at hm
    rw [hm, hmod] at hlow
    rw [hm, ← hpow] at hlt
    exact ⟨m, (Nat.mul_eq_right (Nat.two_pow_pos p).ne').1 hlow, Nat.lt_of_mul_lt_mul_right hlt, hm⟩
  · rintro ⟨m, hodd, hm, hw⟩
    rw [LowestOneAt, hw, hmod, hodd, Nat.one_mul]
    exact ⟨hpow ▸ Nat.mul_lt_mul_of_pos_right hm (Nat.two_pow_pos p), rfl⟩

/-! ### The triangular form (R118) -/

theorem lowestOneAt_initial {p : Config.DirParam} (hp : DimParamLegal p) {j : Nat} (hj : j ≤ 62) (hs : j < p.s) :
    LowestOneAt (62 - j) (rowEntry p j) := by
  obtain ⟨hodd, hlt⟩ := hp.integers (j + 1) (Nat.succ_pos j) hs
  refine (lowestOneAt_iff (by omega) _).2 ⟨_, hodd, ?_, rowEntry_initial hp hj hs⟩
  rwa [show 63 - (62 - j) = j + 1 by omega]

/-- Of the terms of R114 the shifted one has its lowest one bit at `62 - j`, and every other one further up. -/
theorem lowestOneAt_recurrence {p : Config.DirParam} (hp : DimParamLegal p) {j : Nat} (hj : j ≤ 62) (hs : p.s ≤ j)
    (ih : ∀ i < j, LowestOneAt (62 - i) (rowEntry p i)) : LowestOneAt (62 - j) (rowEntry p j) := by
  have habove {i : Nat} (hi : i < j) : MultipleBelow (62 - j + 1) (rowEntry p i) :=
    (ih i hi).multipleBelow (by omega)
  obtain ⟨hpos, -⟩ := hp.degree
  have hshifted : LowestOneAt (62 - j) (rowEntry p (j - p.s) >>> p.s) := by
    have hterm := ih (j - p.s) (by omega)
    rw [show 62 - (j - p.s) = 62 - j + p.s by omega] at hterm
    exact hterm.shiftRight
  rw [rowEntry_recurrence hp hs]
  refine List.foldlRecOn _ _ ?_ fun w hw k _ => ?_
  · rw [BitVec.xor_comm]
    exact hshifted.xor (habove (by omega))
  · split
    · exact hw.xor (habove (by omega))
    · exact hw

theorem lowestOneAt_rowEntry {p : Config.DirParam} (hp : DimParamLegal p) {j : Nat} (hj : j ≤ 62) :
    LowestOneAt (62 - j) (rowEntry p j) := by
  induction j using Nat.strong_induction_on with
  | _ j ih =>
    rcases Nat.lt_or_ge j p.s with hs | hs
    · exact lowestOneAt_initial hp hj hs
    · exact lowestOneAt_recurrence hp hj hs fun i hi => ih i hi (by omega)

/-- Every entry of a valid table has its lowest one bit at `62 - j`. -/
theorem lowestOneAt_tblRead {ps : Config.DirParams} (hvalid : paramsValid ps = true) (d : Dim) (j : BitPos) :
    LowestOneAt (62 - j.val) (tblRead (buildTable ps) d j) := by
  rcases dim_cases d with rfl | ⟨i, rfl⟩
  · rw [tblRead_zero]
    exact (lowestOneAt_iff (by omega) _).2
      ⟨1, rfl, Nat.one_lt_two_pow (by omega), by rw [buildDim0_toNat (by omega), Nat.one_mul]⟩
  · rw [tblRead_succ]
    exact lowestOneAt_rowEntry (dimParamLegal_of_valid hvalid i) (by omega)

/-- Settles O22: the word form of the lowest one bit. -/
theorem builtTableIsTriangular : Obligations.BuiltTableIsTriangular := by
  intro ps d j hvalid
  obtain ⟨m, hodd, hlt, hentry⟩ := (lowestOneAt_iff (by omega) _).1 (lowestOneAt_tblRead hvalid d j)
  exact ⟨m, hodd, by rwa [show j.val + 1 = 63 - (62 - j.val) by omega], hentry⟩

/-- Settles O21: the recurrence, and the bound from the triangular form. -/
theorem laterEntriesFollowTheRecurrence : Obligations.LaterEntriesFollowTheRecurrence := by
  intro ps i j hvalid hs
  have hv (n : Nat) (hn : n ≤ 62) :
      tblRead (buildTable ps) (BitVec.ofNat 5 (i.val + 1)) (Fin.ofNat 63 n) = rowEntry ps[i] n := by
    rw [tblRead_succ]
    exact congrArg (rowEntry ps[i]) (Nat.mod_eq_of_lt (by omega))
  have hlegal := dimParamLegal_of_valid hvalid i
  dsimp only
  rw [hv _ (by omega : j.val ≤ 62), hv _ (by omega : j.val - ps[i].s ≤ 62)]
  refine ⟨(rowEntry_recurrence hlegal hs).trans (List.foldl_ext _ _ _ fun w k _ => ?_),
    (lowestOneAt_rowEntry hlegal (by omega)).1⟩
  rw [hv _ (by omega : j.val - (k + 1) ≤ 62)]

/-! ### Accumulators of a triangular row (R118, R152) -/

/-- Entry `j` of the row has its lowest one bit at `62 - j` (R118). -/
def Triangular (v : BitPos → Word) : Prop := ∀ j, LowestOneAt (62 - j.val) (v j)

theorem gray_lt {n k : Nat} (h : n < 2 ^ k) : gray n < 2 ^ k :=
  Nat.xor_lt_two_pow h ((Nat.shiftRight_le n 1).trans_lt h)

theorem eq_zero_of_gray {n : Nat} (h : gray n = 0) : n = 0 := by
  have hhalf : n = n >>> 1 := Nat.xor_eq_zero_iff.1 h
  rw [Nat.shiftRight_eq_div_pow] at hhalf
  omega

theorem multipleBelow_xorSelected_of_selected {v : BitPos → Word} {g p : Nat} {l : List BitPos}
    (h : ∀ j ∈ l, g.testBit j.val = true → MultipleBelow p (v j)) : MultipleBelow p (xorSelected v g l) := by
  induction l with
  | nil => exact multipleBelow_zero p
  | cons j l ih =>
    obtain ⟨hj, hl⟩ := List.forall_mem_cons.1 h
    refine MultipleBelow.xor ?_ (ih hl)
    split
    · exact hj ‹_›
    · exact multipleBelow_zero p

/-- A code below `2^k` selects the first `k` entries only, and their one bits stand at `63 - k` and above. -/
theorem Triangular.multipleBelow_xorSelected {v : BitPos → Word} (hv : Triangular v) {g k : Nat} (hg : g < 2 ^ k)
    (l : List BitPos) : MultipleBelow (63 - k) (xorSelected v g l) := by
  refine multipleBelow_xorSelected_of_selected fun j _ hj => (hv j).multipleBelow ?_
  have hjk : j.val < k := (Nat.pow_lt_pow_iff_right (by decide)).1 ((Nat.ge_two_pow_of_testBit hj).trans_lt hg)
  omega

/-- Without its highest one bit a number is below that bit. -/
theorem xor_two_pow_log2_lt {g : Nat} (hg : g ≠ 0) : g ^^^ 2 ^ g.log2 < 2 ^ g.log2 := by
  refine Nat.lt_pow_two_of_testBit _ fun i hi => ?_
  rw [Nat.testBit_xor, Nat.testBit_two_pow]
  rcases Nat.eq_or_lt_of_le hi with rfl | hi
  · simp [Nat.testBit_log2 hg]
  · have hlt : g < 2 ^ i := (Nat.log2_lt hg).1 hi
    simp [Nat.testBit_lt_two_pow hlt, Nat.ne_of_lt hi]

/-- No selection of at least one entry XORs to 0: the one at the highest position has the lowest one bit. -/
theorem Triangular.xorSelected_ne_zero {v : BitPos → Word} (hv : Triangular v) {g : Nat} (hg : g ≠ 0) (hlt : g < 2 ^ 63) :
    xorSelected v g (List.finRange 63) ≠ 0#64 := by
  obtain ⟨top, htop⟩ : ∃ top : BitPos, top.val = g.log2 := ⟨⟨g.log2, (Nat.log2_lt hg).2 hlt⟩, rfl⟩
  have hrest : g ^^^ 2 ^ top.val < 2 ^ top.val := htop ▸ xor_two_pow_log2_lt hg
  have hsplit : xorSelected v g (List.finRange 63) =
      v top ^^^ xorSelected v (g ^^^ 2 ^ top.val) (List.finRange 63) := by
    rw [← xorSelected_two_pow v (List.mem_finRange top) (List.nodup_finRange 63), ← xorSelected_xor, Nat.xor_comm g,
      ← Nat.xor_assoc, Nat.xor_self, Nat.zero_xor]
  have hhigh : MultipleBelow (62 - top.val + 1) (xorSelected v (g ^^^ 2 ^ top.val) (List.finRange 63)) := by
    rw [show 62 - top.val + 1 = 63 - top.val by omega]
    exact hv.multipleBelow_xorSelected hrest _
  rw [hsplit]
  exact ((hv top).xor hhigh).ne_zero

/-- Different indices below `2^63` have different accumulators (R118). -/
theorem directAcc_injective {t : Table} {d : Dim} (hv : Triangular (tblRead t d)) {n n' : Nat} (hn : n < 2 ^ 63)
    (hn' : n' < 2 ^ 63) (h : directAcc t d n = directAcc t d n') : n = n' := by
  have hkernel : xorSelected (tblRead t d) (gray (n ^^^ n')) (List.finRange 63) = 0#64 := by
    rw [gray_xor, xorSelected_xor, ← directAcc_eq_xorSelected, ← directAcc_eq_xorSelected, h, BitVec.xor_self]
  have hgray : gray (n ^^^ n') = 0 := by
    by_contra hne
    exact hv.xorSelected_ne_zero hne (gray_lt (Nat.xor_lt_two_pow hn hn')) hkernel
  exact Nat.xor_eq_zero_iff.1 (eq_zero_of_gray hgray)

/-- Settles O23: multiples because few entries are selected, distinct because a nonzero difference selects one. -/
theorem accumulatorsOfAPrefixAreDistinctMultiples : Obligations.AccumulatorsOfAPrefixAreDistinctMultiples := by
  intro ps d k hvalid hk
  have hv : Triangular (tblRead (buildTable ps) d) := lowestOneAt_tblRead hvalid d
  have hbound {n : Nat} (hn : n < 2 ^ k) : n < 2 ^ 63 := hn.trans_le (Nat.pow_le_pow_right (by decide) hk)
  refine ⟨fun n hn => ?_, fun n n' hn hn' => directAcc_injective hv (hbound hn) (hbound hn')⟩
  rw [directAcc_eq_xorSelected]
  obtain ⟨hlt, hmultiple⟩ := hv.multipleBelow_xorSelected (gray_lt hn) (List.finRange 63)
  exact ⟨hlt, Nat.dvd_of_mod_eq_zero hmultiple⟩

/-! ### The end of the build (R111, R261) -/

theorem step_of_building {s : State} (hb : s.bstate = .building) : step s = .next (build s) := by
  rcases step_cases s with ⟨-, hstep⟩ | ⟨hne, -⟩
  · exact hstep
  · exact absurd hb hne

/-- Engine `k` after an update of every engine. -/
theorem engines_mapEngines_getElem? {s : State} {k : Nat} {e : Engine} (he : (engines s)[k]? = some e)
    (f : Engine → Engine) : (engines (mapEngines f s))[k]? = some (f e) := by
  rw [engines_mapEngines, List.getElem?_map, he, Option.map_some]

/-- Settles O17: each end of the build is an update of every engine. -/
theorem buildEndsBuiltOrFailed : Obligations.BuildEndsBuiltOrFailed := by
  intro s hb
  rw [step_of_building hb]
  rcases build_cases s with ⟨hparams, hbuild⟩ | ⟨hparams, hbuild⟩
  · refine ⟨fun _ => ⟨_, rfl, ?_⟩, fun hinvalid => absurd (hparams.symm.trans hinvalid) (by decide)⟩
    rw [hbuild]
    exact ⟨buildSucceeds_bstate s, buildSucceeds_table s, fun k e he =>
      engines_mapEngines_getElem? (s := { s with bstate := .built, table := buildTable s.params.dirParams }) he _⟩
  · refine ⟨fun hvalid => absurd (hparams.symm.trans hvalid) (by decide), fun _ => ⟨_, rfl, ?_⟩⟩
    rw [hbuild]
    exact ⟨buildFails_bstate s, buildFails_table s, fun k e he =>
      ⟨_, engines_mapEngines_getElem? (s := { s with bstate := .failed }) he _, rfl,
        statusFaulted_setFault .buildFail e.status, statusCause_setFault .buildFail e.status,
        statusReady_setFault .buildFail e.status, statusWrap_setFault .buildFail e.status⟩⟩

/-! ### `TBLRD` (R117) -/

theorem dimOperand_of_lt {a : Word} (ha : a.toNat < 32) : dimOperand a = some (BitVec.ofNat 5 a.toNat) := if_pos ha

theorem dimOperand_of_ge {a : Word} (ha : 32 ≤ a.toNat) : dimOperand a = none := if_neg (Nat.not_lt.2 ha)

theorem posOperand_of_lt {b : Word} (hb : b.toNat < 63) : posOperand b = some ⟨b.toNat, hb⟩ := dif_pos hb

theorem posOperand_of_ge {b : Word} (hb : 63 ≤ b.toNat) : posOperand b = none := dif_neg (Nat.not_lt.2 hb)

theorem exec_tblrd_of_some {a b : Word} {d : Dim} {j : BitPos} (hd : dimOperand a = some d) (hj : posOperand b = some j)
    (s : State) : exec (.tblrd a b) s = answer s (.ok (s.eng, tblRead s.table d j)) := by
  simp only [exec, execTblrd, hd, hj]

theorem exec_tblrd_of_none {a b : Word} (h : dimOperand a = none ∨ posOperand b = none) (s : State) :
    exec (.tblrd a b) s = answer s (.error (raised .dimRange)) := by
  rcases h with hd | hj
  · simp only [exec, execTblrd, hd]
  · cases hd : dimOperand a <;> simp only [exec, execTblrd, hd, hj]

/-- Settles O34: both operands name an entry, or one of them does not. -/
theorem tblrdReadsTheTable : Obligations.TblrdReadsTheTable := by
  intro s a b hrun
  refine ⟨fun ha hb => ?_, fun hout => ?_⟩
  · exact (exec_tblrd_of_some (dimOperand_of_lt ha) (posOperand_of_lt hb) s).trans (answer_ok hrun)
  · have hnone : dimOperand a = none ∨ posOperand b = none := hout.imp dimOperand_of_ge posOperand_of_ge
    exact ⟨_, (exec_tblrd_of_none hnone s).trans (answer_error hrun), faultEntry_onFault s.eng .dimRange⟩

end Sys2Proof.Proofs.Builder

/-! ## The normalizer and the integer part of a draw (spec/41_accumulator.md R150, R151, spec/43_extraction.md R203)

1.0 is the first pattern of a binade, so a sample rounds to it from the middle below it on. A draw stays below its range
because a remainder is at least `2^-53` below 1.0: half a step of the product's binade cannot bridge that. -/
namespace Sys2Proof.Proofs.Normalizer

open Sys2Proof Sys2Proof.Machine Sys2Proof.Proofs.Rounding Sys2Proof.Proofs.UnitInterval

/-! ### The range of the normalizer (R151) -/

theorem toNat_normalizer (a : Word) : (normalizer a).toNat = rneBits (a.toNat * 2 ^ 2085) := by
  unfold normalizer rneFrac63
  exact toNat_f64Pack (rneBits_lt _)

/-- Rounding reaches 1.0 from the middle between it and the value before it on. -/
theorem one_le_rneBits_iff (n : Nat) : f64One.toNat ≤ rneBits n ↔ (2 ^ 54 - 1) * 2 ^ 2094 ≤ n := by
  rw [← next_binade_le_pattern_iff (by decide), rneBits_eq, show f64One.toNat = 1023 * 2 ^ 52 from rfl]
  omega

/-- A number below the end of a binade rounds at most to the start of the next one. -/
theorem rneBits_le_of_lt {n s : Nat} (hs : 1074 ≤ s) (hn : n < 2 ^ (s + 53)) : rneBits n ≤ (s + 2 - 1074) * 2 ^ 52 := by
  have hbinade : binadeShift n ≤ s := by
    by_contra hgt
    have hstart := binade_start_le (n := n) (by omega)
    exact absurd hn (Nat.not_lt_of_ge (Nat.le_trans (two_pow_le (by omega)) hstart))
  have hcarry := roundShift_binade_le n
  have hbits := rneBits_eq n
  omega

theorem one_le_normalizer_iff (a : Word) : f64One.toNat ≤ (normalizer a).toNat ↔ sampleLimit ≤ a.toNat := by
  rw [toNat_normalizer, one_le_rneBits_iff, show 2094 = 9 + 2085 from rfl, two_pow_add, ← Nat.mul_assoc,
    Nat.mul_le_mul_right_iff (two_pow_pos _)]
  exact Iff.rfl

theorem normalizer_le_one {a : Word} (ha : a.toNat < 2 ^ 63) : (normalizer a).toNat ≤ f64One.toNat := by
  rw [toNat_normalizer]
  refine rneBits_le_of_lt (s := 2095) (by decide) ?_
  rw [show 2095 + 53 = 63 + 2085 from rfl, two_pow_add]
  exact Nat.mul_lt_mul_of_pos_right ha (two_pow_pos _)

/-- The check of `Load` (R146) fails exactly from the limit of R151 on, whatever the accumulator. -/
theorem f64GeOne_normalizer (a : Word) : f64GeOne (normalizer a) = decide (sampleLimit ≤ a.toNat) := by
  have hlt : f64Mag (normalizer a) < 2 ^ 1074 ↔ (normalizer a).toNat < f64One.toNat := by
    unfold normalizer rneFrac63
    rw [toNat_f64Pack (rneBits_lt _)]
    exact f64Mag_pack_lt_one_iff (rneBits_lt _)
  unfold f64GeOne
  rw [decide_eq_decide, ← one_le_normalizer_iff, ← Nat.not_lt, hlt, Nat.not_lt]

/-- An accumulator whose one bits span at most 53 positions is normalized exactly. -/
theorem f64Mag_normalizer {a : Word} {m k : Nat} (hm : m < 2 ^ 53) (ha : a.toNat = m * 2 ^ k) :
    f64Mag (normalizer a) * 2 ^ 1074 = a.toNat * 2 ^ 2085 := by
  have hunits : a.toNat * 2 ^ 2085 = m * 2 ^ (k + 1011 + 1074) := by
    rw [ha, Nat.mul_assoc, ← two_pow_add, Nat.add_assoc]
  have hfinite : a.toNat * 2 ^ 2085 < 2 ^ 2181 :=
    calc a.toNat * 2 ^ 2085 < 2 ^ 64 * 2 ^ 2085 := Nat.mul_lt_mul_of_pos_right a.isLt (two_pow_pos _)
      _ = 2 ^ (64 + 2085) := (two_pow_add ..).symm
      _ ≤ 2 ^ 2181 := two_pow_le (by decide)
  unfold normalizer rneFrac63
  refine f64Mag_pack_rneBits_exact hfinite ?_
  rw [hunits]
  exact two_pow_binadeShift_dvd hm

/-- Settles O28: 1.0 is reached from the middle below it on and never passed, and a 53-bit significand is kept. -/
theorem normalizerRangeAndExactness : Obligations.NormalizerRangeAndExactness := by
  refine ⟨fun a ha => ⟨⟨fun hone => ?_, fun hlimit => ?_⟩, fun hbelow => ?_⟩, fun a m k hm hspan ha => ⟨?_, ?_⟩⟩
  · exact (one_le_normalizer_iff a).1 (by rw [hone])
  · exact BitVec.eq_of_toNat_eq (Nat.le_antisymm (normalizer_le_one ha) ((one_le_normalizer_iff a).2 hlimit))
  · exact Nat.le_pred_of_lt (Nat.lt_of_not_le (mt (one_le_normalizer_iff a).1 (Nat.not_le_of_lt hbelow)))
  · unfold normalizer rneFrac63
    exact f64Neg_pack_rneBits _
  · refine Nat.eq_of_mul_eq_mul_right (two_pow_pos 1011) ?_
    rw [Nat.mul_assoc, Nat.mul_assoc, ← two_pow_add, ← two_pow_add, show 63 + 1011 = 1074 from rfl,
      show 1074 + 1011 = 2085 from rfl]
    exact f64Mag_normalizer hm hspan

/-! ### The integer part of a draw (R203) -/

/-- A remainder is at least `2^-53` below 1.0. -/
theorem f64Mag_add_le_of_frLegal {fr : F64} (hfr : FrLegal fr) : f64Mag fr + 2 ^ 1021 ≤ 2 ^ 1074 := by
  obtain ⟨-, hmag⟩ := (frLegal_iff fr).1 hfr
  obtain ⟨m, e, hfrmag, hm⟩ := f64Mag_eq_significand_mul fr
  rw [hfrmag] at hmag ⊢
  rcases Nat.lt_or_ge e 1021 with hlow | hhigh
  · calc m * 2 ^ e + 2 ^ 1021 ≤ 2 ^ 53 * 2 ^ 1020 + 2 ^ 1073 :=
          Nat.add_le_add (Nat.mul_le_mul (Nat.le_of_lt hm) (two_pow_le (by omega))) (two_pow_le (by decide))
      _ = 2 ^ 1074 := by
        rw [← two_pow_add, ← Nat.two_mul, show 1074 = 1 + 1073 from rfl, two_pow_add 1, Nat.pow_one]
  · rw [← Nat.sub_add_cancel hhigh, two_pow_add, ← Nat.mul_assoc] at hmag ⊢
    rw [show 1074 = 53 + 1021 from rfl, two_pow_add 53, ← Nat.succ_mul] at *
    exact Nat.mul_le_mul_right _ (Nat.succ_le_of_lt (Nat.lt_of_mul_lt_mul_right hmag))

/-- Rounding bridges at most half a step of the binade. -/
theorem two_mul_gap_le_step {n gap bound : Nat} (hgap : n + gap ≤ bound)
    (hreach : bound ≤ roundShift n (binadeShift n) * 2 ^ binadeShift n) : 2 * gap ≤ 2 ^ binadeShift n := by
  obtain ⟨s, hs⟩ := binadeShift_eq_succ n
  have hhalf := (roundShift_half_step n s).1
  rw [← hs] at hhalf
  unfold distance at hhalf
  omega

/-- A number that is at least a `2^-53` part below `r` rounds below `r`: otherwise the binade's step would be `r * 2^-52` or
more, and the number, which is at least `2^52` steps, not below `r`. -/
theorem f64Mag_pack_rneBits_lt {n r : Nat} (hr : 0 < r) (hfinite : n < 2 ^ 2181)
    (hn : n + r * 2 ^ 2095 ≤ r * 2 ^ 2148) : f64Mag (f64Pack false (rneBits n)) < r * 2 ^ 1074 := by
  rw [f64Mag_pack_rneBits (rneBits_finite hfinite)]
  refine Nat.lt_of_mul_lt_mul_right (a := 2 ^ 1074) ?_
  rw [grid_units, Nat.mul_assoc, ← two_pow_add, show 1074 + 1074 = 2148 from rfl]
  by_contra hreach
  have hstep : r * 2 ^ 2096 ≤ 2 ^ binadeShift n := by
    rw [show 2096 = 1 + 2095 from rfl, two_pow_add 1, Nat.pow_one, Nat.mul_left_comm]
    exact two_mul_gap_le_step hn (Nat.le_of_not_lt hreach)
  have hbinade : 1074 < binadeShift n := by
    by_contra hle
    have hpow := Nat.le_trans (Nat.le_mul_of_pos_left (2 ^ 2096) hr)
      (Nat.le_trans hstep (two_pow_le (Nat.le_of_not_lt hle)))
    exact absurd ((Nat.pow_le_pow_iff_right (by decide)).1 hpow) (by decide)
  have hscaled := Nat.mul_le_mul_right (2 ^ 52) hstep
  rw [Nat.mul_assoc, ← two_pow_add, ← two_pow_add] at hscaled
  have hstart := binade_start_le hbinade
  have hpos := Nat.mul_pos hr (two_pow_pos 2095)
  omega

/-- The integer part of a draw is below its range (R203). -/
theorem f64Floor_drawProduct_lt {fr : F64} {r : Nat} (hfr : FrLegal fr) (hpos : 0 < r) (hr : r ≤ 2 ^ 32) :
    f64Floor (drawProduct fr r) < r := by
  rw [f64Floor_eq, drawProduct_eq hfr hr]
  refine Nat.div_lt_of_lt_mul ?_
  rw [Nat.mul_comm (2 ^ 1074) r]
  refine f64Mag_pack_rneBits_lt hpos (Nat.lt_of_lt_of_le (draw_units_lt hfr hr) (two_pow_le (by decide))) ?_
  calc f64Mag fr * (r * 2 ^ 1074) + r * 2 ^ 2095 = (f64Mag fr + 2 ^ 1021) * (r * 2 ^ 1074) := by
        rw [show 2095 = 1021 + 1074 from rfl, two_pow_add, Nat.add_mul, Nat.mul_left_comm r]
    _ ≤ 2 ^ 1074 * (r * 2 ^ 1074) := Nat.mul_le_mul_right _ (f64Mag_add_le_of_frLegal hfr)
    _ = r * 2 ^ 2148 := by rw [Nat.mul_left_comm, ← two_pow_add]

end Sys2Proof.Proofs.Normalizer

/-! ## What a selection answers (spec/41_accumulator.md R140 to R149, spec/60_exceptions.md R258)

From a cache entry that satisfies R25 a refresh, in either mode, and a recompute store the same accumulator, so what a
selection answers depends on that accumulator alone: the selected engine below the limit of R151, `RANGE` from it on. Every
command that moves to a dimension ends in this one outcome, directly or with `WRAP` flagged before it. -/
namespace Sys2Proof.Proofs.SelectionOutcome

open Sys2Proof Sys2Proof.Machine Sys2Proof.Proofs.GrayWalk Sys2Proof.Proofs.Normalizer Sys2Proof.Proofs.Selection
open Sys2Proof.Proofs.Block (statusReserved_or)
open Sys2Proof.Proofs.Encoding (statusReserved_setFault)
open Sys2Proof.Proofs.Builder (dimOperand_of_lt)

/-- Settles O24: the greater index is an odd multiple of `2^t`. -/
theorem grayCodesDifferInOneBit : Obligations.GrayCodesDifferInOneBit := by
  intro m
  obtain ⟨t, k, h⟩ := exists_succ_eq_odd_mul m
  refine ⟨t, ?_, ?_, fun hlt => ?_⟩
  · rw [h, Nat.mul_add_mod, Nat.mod_eq_of_lt (Nat.pow_lt_pow_right (by decide) (Nat.lt_succ_self t))]
  · rw [gray_succ h, ← Nat.xor_assoc, Nat.xor_self, Nat.zero_xor]
  · have ht : t < 63 := (Nat.pow_lt_pow_iff_right (by decide)).1 (show 2 ^ t < 2 ^ 63 by omega)
    exact ⟨ht, by rw [h, lowestOne_odd_mul ht]⟩

/-! ### The stored accumulator (R142 to R145, R152) -/

section stored

variable {t : Table} {e : Engine} {d : Dim} {n v : Word}

theorem storeAcc_of_lt (hv : v.toNat < 2 ^ 63) : storeAcc e d v n = .ok (setCache e d { val := v, idx := n }) :=
  if_neg (Nat.not_le_of_lt hv)

theorem storeAcc_of_ge (hv : 2 ^ 63 ≤ v.toNat) : storeAcc e d v n = .error (raised .range) := if_pos hv

/-- A refresh to the index the entry is at writes what the entry holds. -/
theorem refresh_of_idx_eq (hc : CacheAgrees t d (cacheAt e d)) (hidx : (cacheAt e d).idx = n) :
    refresh t e d n = .ok (setCache e d { val := directAcc t d n.toNat, idx := n }) := by
  have hentry : cacheAt e d = { val := directAcc t d n.toNat, idx := n } := by rw [← hidx, ← hc.2]
  rw [refresh, if_pos hidx, ← hentry, setCache_cacheAt]

/-- A refresh that has to move stores the direct accumulator, as a recompute does. -/
theorem refresh_of_idx_ne (hc : CacheAgrees t d (cacheAt e d)) (hn : n.toNat < 2 ^ 63) (hidx : (cacheAt e d).idx ≠ n) :
    refresh t e d n = recompute t e d n := by
  rw [refresh_eq hc hn, if_neg hidx, recompute]

theorem refresh_of_lt (hc : CacheAgrees t d (cacheAt e d)) (hn : n.toNat < 2 ^ 63)
    (hacc : (directAcc t d n.toNat).toNat < 2 ^ 63) :
    refresh t e d n = .ok (setCache e d { val := directAcc t d n.toNat, idx := n }) := by
  by_cases hidx : (cacheAt e d).idx = n
  · exact refresh_of_idx_eq hc hidx
  · exact (refresh_of_idx_ne hc hn hidx).trans (storeAcc_of_lt hacc)

/-- Settles O25: the walk answers the direct accumulator, and one check ends either operation. -/
theorem refreshAndRecomputeAgree : Obligations.RefreshAndRecomputeAgree := by
  intro t e d n hn hc
  refine ⟨fun hlt => ⟨refresh_of_lt hc hn hlt, storeAcc_of_lt hlt⟩, fun hge => ?_⟩
  have hrecompute : recompute t e d n = .error (raised .range) := storeAcc_of_ge hge
  exact ⟨hrecompute, fun hidx => (refresh_of_idx_ne hc hn hidx).trans hrecompute⟩

/-! ### The selection -/

/-- What the selection of dimension `d` at index `n` answers (R146, R151, R152). -/
def selection (t : Table) (e : Engine) (d : Dim) (n : Word) : Except Abort Engine :=
  if sampleLimit ≤ (directAcc t d n.toNat).toNat then .error (raised .range) else .ok (selected t e d n)

theorem selection_of_lt (h : (directAcc t d n.toNat).toNat < sampleLimit) :
    selection t e d n = .ok (selected t e d n) := if_neg (Nat.not_le_of_lt h)

theorem selection_of_ge (h : sampleLimit ≤ (directAcc t d n.toNat).toNat) :
    selection t e d n = .error (raised .range) := if_pos h

theorem sampleLimit_le_of_ge (h : 2 ^ 63 ≤ v.toNat) : sampleLimit ≤ v.toNat := Nat.le_trans (by decide) h

/-- The load of an entry that holds the direct accumulator. -/
theorem load_directAcc (t : Table) (e : Engine) (d : Dim) (n : Word) :
    load (setCache { e with idx := n, dim := d } d { val := directAcc t d n.toNat, idx := n }) d = selection t e d n := by
  simp only [load, cacheAt_setCache_same, f64GeOne_normalizer, decide_eq_true_eq]
  rfl

theorem recomputeLoad_eq_selection (t : Table) (e : Engine) (d : Dim) (n : Word) :
    recomputeLoad t { e with idx := n, dim := d } d n = selection t e d n := by
  unfold recomputeLoad recompute
  rcases Nat.lt_or_ge (directAcc t d n.toNat).toNat (2 ^ 63) with hlt | hge
  · rw [storeAcc_of_lt hlt]
    exact load_directAcc t e d n
  · rw [storeAcc_of_ge hge, selection_of_ge (sampleLimit_le_of_ge hge)]

theorem refreshLoad_eq_selection (hc : CacheAgrees t d (cacheAt e d)) (hn : n.toNat < 2 ^ 63) :
    refreshLoad t { e with idx := n, dim := d } d n = selection t e d n := by
  by_cases hidx : (cacheAt e d).idx = n
  · rw [refreshLoad, refresh_of_idx_eq (e := { e with idx := n, dim := d }) hc hidx]
    exact load_directAcc t e d n
  · rw [refreshLoad, refresh_of_idx_ne (e := { e with idx := n, dim := d }) hc hn hidx]
    exact recomputeLoad_eq_selection t e d n

/-! ### The operations that select -/

theorem toNat_add_one (hn : n.toNat + 1 < 2 ^ 63) : (n + 1).toNat = n.toNat + 1 :=
  BitVec.toNat_add_of_lt (Nat.lt_trans hn (by decide))

theorem seek_eq_selection {k : Nat} (hk : k < 2 ^ 63) :
    seek t e k = (selection t e 0 (BitVec.ofNat 64 k)).map fun e' => (e', 0) := by
  rw [seek, if_neg (Nat.not_le_of_lt hk), recomputeLoad_eq_selection]
  cases selection t e 0 (BitVec.ofNat 64 k) <;> rfl

theorem advanceIndex_eq_selection (hc : CacheAgrees t 0 (cacheAt e 0)) (hidx : e.idx.toNat + 1 < 2 ^ 63) :
    advanceIndex t e = selection t e 0 (e.idx + 1) := by
  rw [advanceIndex, if_neg (Nat.not_le_of_lt hidx)]
  exact refreshLoad_eq_selection hc (by rwa [toNat_add_one hidx])

theorem advanceDim_eq_selection (hdim : e.dim.toNat < 31) (hc : CacheAgrees t (e.dim + 1) (cacheAt e (e.dim + 1)))
    (hidx : e.idx.toNat < 2 ^ 63) : advanceDim t e = selection t e (e.dim + 1) e.idx := by
  rw [advanceDim, if_pos hdim]
  exact refreshLoad_eq_selection hc hidx

/-- At dimension 31 the next point is selected with `WRAP` flagged, which its fault keeps (R148, R252). -/
theorem advanceDim_eq_wrapped_selection (hdim : e.dim.toNat = 31) (hc : CacheAgrees t 0 (cacheAt e 0))
    (hidx : e.idx.toNat + 1 < 2 ^ 63) :
    advanceDim t e = (selection t { e with status := statusSetWrap e.status } 0 (e.idx + 1)).mapError
      fun a => { a with wrapped := true } := by
  rw [advanceDim, if_neg (by omega), wrap,
    advanceIndex_eq_selection (e := { e with status := statusSetWrap e.status }) hc hidx]
  cases selection t { e with status := statusSetWrap e.status } 0 (e.idx + 1) <;> rfl

theorem advanceAndAnswer_eq_map (t : Table) (e : Engine) (w : Word) :
    advanceAndAnswer t e w = (advanceDim t e).map fun e' => (e', w) := by
  unfold advanceAndAnswer
  cases advanceDim t e <;> rfl

/-- A draw over the precision budget answers its value and moves on (R208); none is out of range (R203). -/
theorem boundedDraw_of_budget_lt {lo hi : Nat} (hfr : FrLegal e.fr) (hlt : lo < hi) (hhi : hi ≤ 2 ^ 32)
    (hbudget : 2048 < e.prod.toNat * (hi - lo)) :
    boundedDraw t e lo hi = advanceAndAnswer t e (BitVec.ofNat 64 (lo + f64Floor (drawProduct e.fr (hi - lo)))) := by
  have hdraw := f64Floor_drawProduct_lt hfr (Nat.sub_pos_of_lt hlt) (by omega)
  unfold boundedDraw
  dsimp only
  rw [if_neg (Nat.not_le_of_lt hlt), if_neg (Nat.not_le_of_lt hdraw), if_pos hbudget]

end stored

/-! ### A command that selects -/

section command

variable {s : State} {d : Dim} {n w : Word}

theorem statusReserved_setWrap (v : Word) : statusReserved (statusSetWrap v) = statusReserved v := by
  rw [statusSetWrap, statusReserved_or, (by decide : statusReserved 0x4#64 = 0)]
  exact BitVec.or_zero

/-- Fault entry, with `WRAP` set where the command flagged it (R252). -/
theorem faultEntry_onFault_abort (e : Engine) (a : Abort) : FaultEntry e (onFault e a) (faultNumber a.code) a.wrapped := by
  obtain ⟨c, wrapped⟩ := a
  cases wrapped with
  | false => exact Encoding.faultEntry_onFault e c
  | true =>
    refine ⟨rfl, statusFaulted_setFault .., statusCause_setFault .., ?_, ?_, ?_⟩
    · exact (statusWrap_setFault ..).trans ((statusWrap_setWrap _).trans (Bool.or_true _).symm)
    · exact (statusReady_setFault ..).trans (statusReady_setWrap _)
    · exact (statusReserved_setFault ..).trans (statusReserved_setWrap _)

theorem faults_answer_error (hrun : statusFaulted s.eng.status = false) (a : Abort) :
    Faults s (answer s (.error a)) (faultNumber a.code) a.wrapped :=
  ⟨_, answer_error hrun, faultEntry_onFault_abort s.eng a⟩

/-- A command that ends in a selection completes below the limit of R151. -/
theorem answer_selection (hrun : statusFaulted s.eng.status = false)
    (hacc : (directAcc s.table d n.toNat).toNat < sampleLimit) :
    answer s ((selection s.table s.eng d n).map fun e => (e, w)) =
      .next { s with eng := { selected s.table s.eng d n with rsp := okResponse w } } := by
  rw [selection_of_lt hacc]
  exact answer_ok hrun

/-- It faults with `RANGE` from that limit on. -/
theorem faults_answer_selection (hrun : statusFaulted s.eng.status = false)
    (hacc : sampleLimit ≤ (directAcc s.table d n.toNat).toNat) :
    Faults s (answer s ((selection s.table s.eng d n).map fun e => (e, w))) 5 false := by
  rw [selection_of_ge hacc]
  exact faults_answer_error hrun (raised .range)

/-- A command that ends in the wrap completes with `WRAP` set (R148). -/
theorem answer_wrapped_selection (hrun : statusFaulted s.eng.status = false) (hdim : s.eng.dim.toNat = 31)
    (hsel : Selectable s.table s.eng 0 (s.eng.idx + 1)) (hidx : s.eng.idx.toNat + 1 < 2 ^ 63) :
    answer s (advanceAndAnswer s.table s.eng w) = .next { s with
      eng := { selected s.table s.eng 0 (s.eng.idx + 1) with
        status := s.eng.status ||| 4#64, rsp := okResponse w } } := by
  obtain ⟨-, hc, hacc⟩ := hsel
  rw [advanceAndAnswer_eq_map, advanceDim_eq_wrapped_selection hdim hc hidx, selection_of_lt hacc]
  exact answer_ok hrun

/-- It faults with `RANGE`, and keeps `WRAP`, when the next point cannot be loaded. -/
theorem faults_answer_wrapped_selection (hrun : statusFaulted s.eng.status = false) (hdim : s.eng.dim.toNat = 31)
    (hc : CacheAgrees s.table 0 (cacheAt s.eng 0)) (hidx : s.eng.idx.toNat + 1 < 2 ^ 63)
    (hacc : sampleLimit ≤ (directAcc s.table 0 (s.eng.idx.toNat + 1)).toNat) :
    Faults s (answer s (advanceAndAnswer s.table s.eng w)) 5 true := by
  rw [advanceAndAnswer_eq_map, advanceDim_eq_wrapped_selection hdim hc hidx,
    selection_of_ge (by rwa [toNat_add_one hidx])]
  exact faults_answer_error hrun { code := .range, wrapped := true }

/-- Below dimension 31 a command that moves on selects the next dimension (R147). -/
theorem answer_advance_eq_selection (hdim : s.eng.dim.toNat < 31)
    (hc : CacheAgrees s.table (s.eng.dim + 1) (cacheAt s.eng (s.eng.dim + 1))) (hidx : s.eng.idx.toNat < 2 ^ 63) :
    answer s (advanceAndAnswer s.table s.eng w) =
      answer s ((selection s.table s.eng (s.eng.dim + 1) s.eng.idx).map fun e => (e, w)) := by
  rw [advanceAndAnswer_eq_map, advanceDim_eq_selection hdim hc hidx]

theorem faults_answer_advance (hrun : statusFaulted s.eng.status = false) (hsound : SequenceSound s.table s.eng)
    (hdim : s.eng.dim.toNat < 31)
    (hacc : sampleLimit ≤ (directAcc s.table (s.eng.dim + 1) s.eng.idx.toNat).toNat) :
    Faults s (answer s (advanceAndAnswer s.table s.eng w)) 5 false := by
  obtain ⟨hidx, hcache, -, -⟩ := hsound
  rw [answer_advance_eq_selection hdim (hcache _) hidx]
  exact faults_answer_selection hrun hacc

/-! ### The commands, as selections -/

theorem unsigned32_eq (a : Word) : unsigned32 a = a.toNat % 2 ^ 32 := by
  simp [unsigned32, lowerHalf]

theorem exec_setidx_eq_selection {a : Word} (ha : a.toNat < 2 ^ 63) :
    exec (.setidx a) s = answer s ((selection s.table s.eng 0 a).map fun e => (e, 0)) := by
  have hseek := seek_eq_selection (t := s.table) (e := s.eng) ha
  rw [BitVec.ofNat_toNat, BitVec.setWidth_eq] at hseek
  exact congrArg (answer s) hseek

theorem exec_seeddims_eq_selection {a : Word} {k : Nat}
    (hk : k = s.params.seedBase + a.toNat % 2 ^ 32 * s.params.seedStride) (hlt : k < 2 ^ 63) :
    exec (.seeddims a) s = answer s ((selection s.table s.eng 0 (BitVec.ofNat 64 k)).map fun e => (e, 0)) := by
  have hindex : seedIndex s.params (unsigned32 a) = k := by rw [seedIndex, unsigned32_eq, hk]
  rw [← seek_eq_selection hlt, ← hindex]
  rfl

theorem exec_advidx_eq_selection (hc : CacheAgrees s.table 0 (cacheAt s.eng 0)) (hidx : s.eng.idx.toNat + 1 < 2 ^ 63) :
    exec .advidx s = answer s ((selection s.table s.eng 0 (s.eng.idx + 1)).map fun e => (e, 0)) := by
  rw [← advanceIndex_eq_selection hc hidx]
  simp only [exec, execAdvidx]
  cases advanceIndex s.table s.eng <;> rfl

theorem exec_setdim_eq_selection {a : Word} (ha : a.toNat < 32)
    (hc : CacheAgrees s.table (BitVec.ofNat 5 a.toNat) (cacheAt s.eng (BitVec.ofNat 5 a.toNat)))
    (hidx : s.eng.idx.toNat < 2 ^ 63) :
    exec (.setdim a) s =
      answer s ((selection s.table s.eng (BitVec.ofNat 5 a.toNat) s.eng.idx).map fun e => (e, 0)) := by
  rw [exec_setdim_of_dim (dimOperand_of_lt ha), ← refreshLoad_eq_selection hc hidx]

theorem exec_nextuint_eq_advance {a b : Word} (hfr : FrLegal s.eng.fr) (hlt : a.toNat % 2 ^ 32 < b.toNat % 2 ^ 32)
    (hbudget : 2048 < s.eng.prod.toNat * (b.toNat % 2 ^ 32 - a.toNat % 2 ^ 32)) :
    ∃ w, exec (.nextuint a b) s = answer s (advanceAndAnswer s.table s.eng w) := by
  rw [← unsigned32_eq, ← unsigned32_eq] at hlt hbudget
  have hhi : unsigned32 b ≤ 2 ^ 32 := Nat.le_of_lt (lowerHalf b).isLt
  exact ⟨_, congrArg (answer s) (boundedDraw_of_budget_lt hfr hlt hhi hbudget)⟩

end command

/-! ### Where the commands complete, and where they fault -/

/-- Settles O30: a recompute at a legal index needs no cache entry that satisfies R25. -/
theorem setidxSelectsDimensionZero : Obligations.SetidxSelectsDimensionZero := by
  intro s a hrun ha hacc
  exact (exec_setidx_eq_selection ha).trans (answer_selection hrun hacc)

/-- Settles O31: the entry of dimension 0 satisfies R25, so the index advance is a selection. -/
theorem advidxSelectsTheNextPoint : Obligations.AdvidxSelectsTheNextPoint := by
  rintro s hrun hidx ⟨-, hc, hacc⟩
  exact (exec_advidx_eq_selection hc hidx).trans (answer_selection hrun hacc)

/-- Settles O36: the value is taken before the move to the next dimension. -/
theorem nextvalMovesToTheNextDimension : Obligations.NextvalMovesToTheNextDimension := by
  rintro s hrun hdim ⟨hidx, hc, hacc⟩
  exact (answer_advance_eq_selection hdim hc hidx).trans (answer_selection hrun hacc)

/-- Settles O37: the value is taken before the wrap. -/
theorem nextvalWrapsAtTheLastDimension : Obligations.NextvalWrapsAtTheLastDimension := by
  intro s hrun hdim hidx hsel
  exact answer_wrapped_selection hrun hdim hsel hidx

/-- Settles O52: each command is a selection, those of dimension 31 with `WRAP` flagged, and a draw over the budget moves on
like `NEXTVAL`. -/
theorem sampleOfOneFaults : Obligations.SampleOfOneFaults := by
  intro s a b hrun hsound
  have ⟨hlegal, hcache, _, _⟩ := hsound
  refine ⟨fun ha hacc => ?setidx, fun hidx hacc => ⟨?advidx, fun hdim => ?wraps⟩, fun ha hacc => ?setdim,
    fun hdim hacc => ?advances, fun n hn hlt hacc => ?seeddims, fun hfr hlt hbudget => ?nextuint⟩
  case setidx =>
    rw [exec_setidx_eq_selection ha]
    exact faults_answer_selection hrun hacc
  case advidx =>
    rw [exec_advidx_eq_selection (hcache 0) hidx]
    exact faults_answer_selection hrun (by rwa [toNat_add_one hidx])
  case wraps =>
    have hwrap := fun w => faults_answer_wrapped_selection (w := w) hrun hdim (hcache 0) hidx hacc
    exact ⟨hwrap _, hwrap _⟩
  case setdim =>
    rw [exec_setdim_eq_selection ha (hcache _) hlegal]
    exact faults_answer_selection hrun hacc
  case advances =>
    have hadvance := fun w => faults_answer_advance (w := w) hrun hsound hdim hacc
    exact ⟨hadvance _, hadvance _⟩
  case seeddims =>
    rw [exec_seeddims_eq_selection hn hlt]
    exact faults_answer_selection hrun (by rwa [BitVec.toNat_ofNat, Nat.mod_eq_of_lt (Nat.lt_trans hlt (by decide))])
  case nextuint =>
    obtain ⟨w, hexec⟩ := exec_nextuint_eq_advance hfr hlt hbudget
    rw [hexec]
    exact ⟨fun hdim hacc => faults_answer_advance hrun hsound hdim hacc,
      fun hdim hidx hacc => faults_answer_wrapped_selection hrun hdim (hcache 0) hidx hacc⟩

end Sys2Proof.Proofs.SelectionOutcome

/-! ## The sequence-control commands (spec/42_sequence_control.md)

`SETDIM` and `SEEDDIMS` are selections, by a refresh at the current index and by a recompute at the seeded one, and so
complete below the limit of R151; `GETDIMCNT` completes in every state that is not halted. -/
namespace Sys2Proof.Proofs.SequenceControl

open Sys2Proof Sys2Proof.Machine Sys2Proof.Proofs.SelectionOutcome

/-- Settles O32: the entry of the dimension satisfies R25, so its refresh is a selection at the current index. -/
theorem setdimSelectsTheDimension : Obligations.SetdimSelectsTheDimension := by
  rintro s a hrun ha ⟨hidx, hc, hacc⟩
  exact (exec_setdim_eq_selection ha hc hidx).trans (answer_selection hrun hacc)

/-- Settles O33: an index below `2^63` is its own word, so the word selected holds the exact seeded index. -/
theorem seeddimsSelectsTheSeededIndex : Obligations.SeeddimsSelectsTheSeededIndex := by
  intro s a n hrun hn hlt hacc
  have hword : (BitVec.ofNat 64 n).toNat = n := Nat.mod_eq_of_lt (Nat.lt_trans hlt (by decide))
  rw [exec_seeddims_eq_selection hn hlt]
  exact answer_selection hrun (by rwa [hword])

/-- Settles O29: the answer is the number of dimensions, and the engine answered for is the one before the command. -/
theorem getdimcntAnswers32 : Obligations.GetdimcntAnswers32 := by
  intro s hrun
  exact answer_ok hrun

end Sys2Proof.Proofs.SequenceControl

/-! ## The draws and the interpolation as commands (spec/43_extraction.md R201 to R211)

Each extraction command computes its answer from the engine as it was and then moves on as `NEXTVAL` does; only a draw within
the precision budget stays, and takes the integer part off `FR`. -/
namespace Sys2Proof.Proofs.Extraction

open Sys2Proof Sys2Proof.Machine Sys2Proof.Proofs.Rounding Sys2Proof.Proofs.UnitInterval Sys2Proof.Proofs.Normalizer
open Sys2Proof.Proofs.SelectionOutcome

/-! ### Moving on (R147) -/

/-- Below dimension 31 a command that moves on completes where the next dimension can be selected. -/
theorem answer_advance {s : State} {w : Word} (hrun : statusFaulted s.eng.status = false) (hdim : s.eng.dim.toNat < 31)
    (hsel : Selectable s.table s.eng (s.eng.dim + 1) s.eng.idx) :
    answer s (advanceAndAnswer s.table s.eng w) = .next { s with
      eng := { selected s.table s.eng (s.eng.dim + 1) s.eng.idx with rsp := okResponse w } } := by
  obtain ⟨hidx, hc, hacc⟩ := hsel
  rw [answer_advance_eq_selection hdim hc hidx]
  exact answer_selection hrun hacc

/-- Settles O38: the interpolation reads `t` before the advance, whichever way the advance goes. -/
theorem nextdblInterpolatesAndMovesOn : Obligations.NextdblInterpolatesAndMovesOn := by
  intro s a b hrun
  exact ⟨fun hdim hsel => answer_advance hrun hdim hsel,
    fun hdim hidx hsel => answer_wrapped_selection hrun hdim hsel hidx⟩

/-! ### A bounded draw (R202, R203, R208) -/

/-- Settles O41: a bound of the integer part is one of the product it is taken from. -/
theorem boundedDrawStaysInRange : Obligations.BoundedDrawStaysInRange := by
  intro e lo hi hfr hlt hhi
  have hrange : hi - lo ≤ 2 ^ 32 := by omega
  have hfloor : drawnOffset e (hi - lo) < hi - lo := f64Floor_drawProduct_lt hfr (Nat.sub_pos_of_lt hlt) hrange
  have hmag : f64Mag (drawnValue e (hi - lo)) < (hi - lo) * 2 ^ 1074 := by
    rwa [drawnOffset, f64Floor_eq, Nat.div_lt_iff_lt_mul (two_pow_pos 1074)] at hfloor
  exact ⟨f64Neg_drawProduct hfr hrange, hmag, by omega, by omega, by omega⟩

/-- A draw within the precision budget keeps the dimension and leaves the fraction of the product (R208, R204). -/
theorem boundedDraw_of_le_budget {t : Table} {e : Engine} {lo hi : Nat} (hfr : FrLegal e.fr) (hlt : lo < hi)
    (hhi : hi ≤ 2 ^ 32) (hbudget : e.prod.toNat * (hi - lo) ≤ 2048) :
    boundedDraw t e lo hi = .ok
      ({ e with
          fr := fsub (drawnValue e (hi - lo)) (toF64 (drawnOffset e (hi - lo)))
          prod := BitVec.ofNat 64 (e.prod.toNat * (hi - lo)) },
        BitVec.ofNat 64 (lo + drawnOffset e (hi - lo))) := by
  have hdraw := f64Floor_drawProduct_lt hfr (Nat.sub_pos_of_lt hlt) (by omega)
  unfold boundedDraw
  dsimp only
  rw [if_neg (Nat.not_le_of_lt hlt), if_neg (Nat.not_le_of_lt hdraw), if_neg (Nat.not_lt_of_le hbudget)]
  rfl

theorem exec_nextuint (s : State) (a b : Word) :
    exec (.nextuint a b) s = answer s (boundedDraw s.table s.eng (a.toNat % 2 ^ 32) (b.toNat % 2 ^ 32)) := by
  rw [← unsigned32_eq, ← unsigned32_eq]
  rfl

theorem operand_mod_le (a : Word) : a.toNat % 2 ^ 32 ≤ 2 ^ 32 := Nat.le_of_lt (Nat.mod_lt _ (by decide))

/-- Settles O39: within the budget the draw itself is the whole effect. -/
theorem nextuintKeepsTheDimension : Obligations.NextuintKeepsTheDimension := by
  rintro s a b lo hi hrun hfr rfl rfl hlt hbudget
  rw [exec_nextuint, boundedDraw_of_le_budget hfr hlt (operand_mod_le b) hbudget]
  exact answer_ok hrun

/-- Settles O40: beyond the budget the draw is answered and the command moves on. -/
theorem nextuintSpendsTheDimension : Obligations.NextuintSpendsTheDimension := by
  rintro s a b lo hi hrun hfr rfl rfl hlt hbudget
  rw [exec_nextuint, boundedDraw_of_budget_lt hfr hlt (operand_mod_le b) hbudget]
  exact ⟨fun hdim hsel => answer_advance hrun hdim hsel,
    fun hdim hidx hsel => answer_wrapped_selection hrun hdim hsel hidx⟩

/-- A power of two moves the exponent of the remainder alone, so the product is exact (R205). -/
theorem f64Mag_drawProduct_two_pow {fr : F64} {k : Nat} (hfr : FrLegal fr) (hk : k ≤ 32) :
    f64Mag (drawProduct fr (2 ^ k)) = f64Mag fr * 2 ^ k := by
  have hrange : 2 ^ k ≤ 2 ^ 32 := two_pow_le hk
  obtain ⟨m, e, hmag, hm⟩ := f64Mag_eq_significand_mul fr
  have hproduct : f64Mag fr * 2 ^ k = m * 2 ^ (e + k) := by rw [hmag, Nat.mul_assoc, ← two_pow_add]
  have hunits := draw_units_lt hfr hrange
  rw [drawProduct_eq hfr hrange]
  rw [← Nat.mul_assoc] at hunits ⊢
  exact f64Mag_pack_rneBits_significand hproduct hm (Nat.lt_of_lt_of_le hunits (two_pow_le (by decide)))

/-- Settles O43: the product is exact, and so is the split into its integer part and the rest. -/
theorem powerOfTwoDrawsLoseNothing : Obligations.PowerOfTwoDrawsLoseNothing := by
  intro e k hfr hk
  have hrange : 2 ^ k < 2 ^ 32 := Nat.pow_lt_pow_right (by decide) hk
  obtain ⟨-, -, hsplit⟩ := remainderIsTheExactFraction e (2 ^ k) hfr (two_pow_pos k) hrange
  have hexact : f64Mag (drawnValue e (2 ^ k)) = f64Mag e.fr * 2 ^ k := f64Mag_drawProduct_two_pow hfr (Nat.le_of_lt hk)
  rw [← hexact, ← hsplit, Nat.add_comm]

end Sys2Proof.Proofs.Extraction

/-! ## The interpolation at zero and its NaNs (spec/43_extraction.md R211, R213)

Rounding gives a finite pattern back, so a product with 1.0 and a sum with a zero keep every operand that is no NaN; the one
sum that does not is that of two zeros of different sign. Every NaN that the operations make is the canonical one. -/
namespace Sys2Proof.Proofs.Interpolation

open Sys2Proof Sys2Proof.Machine Sys2Proof.Proofs.Rounding Sys2Proof.Proofs.UnitInterval

/-! ### The fields of a pattern -/

theorem f64Exp_le (x : F64) : f64Exp x ≤ 2047 := Nat.le_of_lt_succ (x.extractLsb' 52 11).isLt

/-- A pattern is its sign, its exponent and its fraction. -/
theorem f64Pack_fields (x : F64) : f64Pack (f64Neg x) (f64Exp x * 2 ^ 52 + f64Frac x) = x := by
  have hlow : f64Exp x * 2 ^ 52 + f64Frac x = x.toNat % 2 ^ 63 := by
    simp only [f64Exp, f64Frac, BitVec.extractLsb'_toNat, Nat.shiftRight_eq_div_pow]
    omega
  have hsign := f64Neg_eq_false_iff x
  have hlt := x.isLt
  refine BitVec.eq_of_toNat_eq ?_
  rw [f64Pack, hlow, BitVec.toNat_ofNat]
  cases hneg : f64Neg x
  · have := hsign.1 hneg
    simp only [Bool.false_eq_true, if_false]
    omega
  · have : ¬ x.toNat < 2 ^ 63 := fun h => by simp [hsign.2 h] at hneg
    simp only [if_true]
    omega

/-- A pattern that is no NaN is finite or the infinity of its sign. -/
theorem finite_or_infinite {x : F64} (h : f64IsNaN x = false) :
    f64Exp x < 2047 ∨ f64IsInf x = true ∧ f64Pack (f64Neg x) 0x7FF0000000000000 = x := by
  have hle := f64Exp_le x
  rcases Nat.lt_or_eq_of_le hle with hlt | hexp
  · exact .inl hlt
  · have hfrac : f64Frac x = 0 := by simpa [f64IsNaN, hexp] using h
    have hfields := f64Pack_fields x
    rw [hexp, hfrac] at hfields
    exact .inr ⟨by simp [f64IsInf, hexp, hfrac], hfields⟩

theorem nan_or_infinite {x : F64} (h : f64Exp x = 2047) : f64IsNaN x = true ∨ f64IsInf x = true := by
  by_cases hfrac : f64Frac x = 0
  · exact .inr (by simp [f64IsInf, h, hfrac])
  · exact .inl (by simp [f64IsNaN, h, hfrac])

theorem not_nan_of_infinite {x : F64} (h : f64IsInf x = true) : f64IsNaN x = false := by
  simp only [f64IsInf, Bool.and_eq_true, beq_iff_eq] at h
  obtain ⟨-, hfrac⟩ := h
  simp [f64IsNaN, hfrac]

/-! ### A finite pattern rounds to itself -/

/-- The binade of a significand of 53 bits, or of a shorter one on the subnormal grid. -/
theorem binadeShift_significand {m s : Nat} (hm : m < 2 ^ 53) (hs : 1074 ≤ s) (hnormal : s = 1074 ∨ 2 ^ 52 ≤ m) :
    binadeShift (m * 2 ^ s) = s := by
  have hge := binadeShift_ge (m * 2 ^ s)
  have hbelow : m * 2 ^ s < 2 ^ (53 + s) := by
    rw [two_pow_add]
    exact Nat.mul_lt_mul_of_pos_right hm (two_pow_pos s)
  rcases Nat.lt_trichotomy (binadeShift (m * 2 ^ s)) s with hlow | heq | hhigh
  · have habove : 2 ^ (52 + s) ≤ m * 2 ^ s := by
      rw [two_pow_add]
      exact Nat.mul_le_mul_right _ (by omega)
    exact absurd (lt_binade_end (m * 2 ^ s)) (Nat.not_lt_of_ge (Nat.le_trans (two_pow_le (by omega)) habove))
  · exact heq
  · have hstart := binade_start_le (n := m * 2 ^ s) (by omega)
    exact absurd hbelow (Nat.not_lt_of_ge (Nat.le_trans (two_pow_le (by omega)) hstart))

theorem roundShift_mul_two_pow (m s : Nat) : roundShift (m * 2 ^ s) s = m := by
  have hhalf := two_pow_pos (s - 1)
  simp only [roundShift, shiftRight_eq_div, Nat.mul_mod_left, Nat.mul_div_cancel m (two_pow_pos s)]
  rw [if_neg (by omega)]

/-- Rounding keeps such a significand; only the overflow to infinity is left. -/
theorem rneBits_significand {m s : Nat} (hm : m < 2 ^ 53) (hs : 1074 ≤ s) (hnormal : s = 1074 ∨ 2 ^ 52 ≤ m) :
    rneBits (m * 2 ^ s) = min ((s - 1074) * 2 ^ 52 + m) 0x7FF0000000000000 := by
  rw [rneBits_eq, binadeShift_significand hm hs hnormal, roundShift_mul_two_pow]

/-- The rounded magnitude of a finite pattern is the pattern, but for its sign. -/
theorem rneBits_f64Mag {x : F64} (h : f64Exp x < 2047) :
    rneBits (f64Mag x * 2 ^ 1074) = f64Exp x * 2 ^ 52 + f64Frac x := by
  have hfrac := f64Frac_lt x
  rcases hexp : f64Exp x with _ | e
  · rw [f64Mag_of_exp_zero hexp, rneBits_significand (by omega) (Nat.le_refl _) (.inl rfl)]
    omega
  · rw [f64Mag_of_exp_succ hexp, Nat.mul_assoc, ← two_pow_add, rneBits_significand (by omega)
      (Nat.le_add_left ..) (.inr (by omega)), Nat.add_sub_cancel]
    omega

theorem f64Pack_rneBits_f64Mag {x : F64} (h : f64Exp x < 2047) :
    f64Pack (f64Neg x) (rneBits (f64Mag x * 2 ^ 1074)) = x := by
  rw [rneBits_f64Mag h, f64Pack_fields]

/-- A magnitude of 0 is that of a zero. -/
theorem eq_zero_of_f64Mag {x : F64} (h : f64Exp x < 2047) (hmag : f64Mag x = 0) : f64Pack (f64Neg x) 0 = x := by
  have hround := f64Pack_rneBits_f64Mag h
  rwa [hmag, Nat.zero_mul, rneBits_zero] at hround

/-! ### Zeros and 1.0 -/

theorem f64Exp_zero (neg : Bool) : f64Exp (f64Pack neg 0) = 0 := by cases neg <;> decide

theorem f64Neg_zero (neg : Bool) : f64Neg (f64Pack neg 0) = neg := by cases neg <;> decide

theorem f64Mag_zero (neg : Bool) : f64Mag (f64Pack neg 0) = 0 := by
  rw [f64Mag_of_exp_zero (f64Exp_zero neg)]
  cases neg <;> decide

theorem f64Val_of_f64Mag_zero {x : F64} (h : f64Mag x = 0) : f64Val x = 0 := by
  simp [f64Val, h]

theorem f64Val_zero (neg : Bool) : f64Val (f64Pack neg 0) = 0 := f64Val_of_f64Mag_zero (f64Mag_zero neg)

/-- A value that is not 0 is its sign and its magnitude. -/
theorem f64Val_of_pos {x : F64} (h : 0 < f64Mag x) :
    f64Val x ≠ 0 ∧ decide (f64Val x < 0) = f64Neg x ∧ (f64Val x).natAbs = f64Mag x := by
  unfold f64Val
  cases f64Neg x
  · simp only [Bool.false_eq_true, if_false, decide_eq_false_iff_not]
    omega
  · simp only [if_true, decide_eq_true_eq]
    omega

theorem f64Exp_zero_lt (neg : Bool) : f64Exp (f64Pack neg 0) < 2047 := by
  rw [f64Exp_zero]
  decide

theorem f64Mag_one : f64Mag f64One = 2 ^ 1074 := by
  have hfrac : 2 ^ 52 + f64Frac f64One = 2 ^ 52 := by decide
  rw [f64Mag_of_exp_succ (e := 1022) (by decide), hfrac, ← two_pow_add]

/-! ### The operations on NaNs, infinities, zeros and 1.0 (R213) -/

theorem fmul_of_nan {x y : F64} (h : f64IsNaN x = true ∨ f64IsNaN y = true) : fmul x y = f64CanonNaN := by
  unfold fmul
  exact if_pos h

theorem fadd_of_nan {x y : F64} (h : f64IsNaN x = true ∨ f64IsNaN y = true) : fadd x y = f64CanonNaN := by
  unfold fadd
  exact if_pos h

theorem fmul_infinite_of_finite {x y : F64} (hx : f64IsInf x = true) (hy : f64Exp y < 2047) :
    fmul x y =
      if f64Mag x = 0 ∨ f64Mag y = 0 then f64CanonNaN else f64Pack (f64Neg x != f64Neg y) 0x7FF0000000000000 := by
  unfold fmul
  simp only [not_nan_of_infinite hx, not_nan_of_exp_lt hy, hx, Bool.false_eq_true, or_self, true_or, if_false, if_true]

theorem fadd_infinite_of_finite {x y : F64} (hx : f64IsInf x = true) (hy : f64Exp y < 2047) : fadd x y = x := by
  unfold fadd
  simp only [not_nan_of_infinite hx, not_nan_of_exp_lt hy, not_inf_of_exp_lt hy, hx, Bool.false_eq_true, or_self,
    false_and, if_false, if_true]

theorem f64Mag_ne_zero_of_infinite {x : F64} (h : f64IsInf x = true) : f64Mag x ≠ 0 := by
  simp only [f64IsInf, Bool.and_eq_true, beq_iff_eq] at h
  obtain ⟨hexp, hfrac⟩ := h
  rw [f64Mag_of_exp_succ (e := 2046) hexp, hfrac]
  exact Nat.ne_of_gt (Nat.mul_pos (by decide) (two_pow_pos _))

/-- 1.0 is neutral in a product. -/
theorem fmul_one {x : F64} (hx : f64IsNaN x = false) : fmul x f64One = x := by
  have hsign : (f64Neg x != f64Neg f64One) = f64Neg x := Bool.xor_false _
  rcases finite_or_infinite hx with hfinite | ⟨hinf, heq⟩
  · rw [fmul_of_finite hfinite (by decide), f64Mag_one, hsign]
    exact f64Pack_rneBits_f64Mag hfinite
  · have hone : f64Mag f64One ≠ 0 := by
      rw [f64Mag_one]
      exact Nat.ne_of_gt (two_pow_pos _)
    rw [fmul_infinite_of_finite hinf (by decide), if_neg (not_or.2 ⟨f64Mag_ne_zero_of_infinite hinf, hone⟩), hsign]
    exact heq

/-- A finite value times `+0.0` is the zero of its sign. -/
theorem fmul_zero {x : F64} (hx : f64Exp x < 2047) : fmul x 0 = f64Pack (f64Neg x) 0 := by
  have hsign : (f64Neg x != f64Neg 0) = f64Neg x := Bool.xor_false _
  rw [fmul_of_finite hx (by decide), hsign, show f64Mag 0 = 0 from f64Mag_zero false, Nat.mul_zero, rneBits_zero]

/-- An infinity or a NaN times `+0.0` is the canonical NaN. -/
theorem fmul_zero_of_not_finite {x : F64} (hx : f64Exp x = 2047) : fmul x 0 = f64CanonNaN := by
  rcases nan_or_infinite hx with hnan | hinf
  · exact fmul_of_nan (.inl hnan)
  · rw [fmul_infinite_of_finite hinf (by decide), if_pos (.inr (f64Mag_zero false))]

/-- The sum of two zeros is negative only when both are. -/
theorem zero_sum_eq (neg neg' : Bool) :
    f64Pack (neg && neg') 0 =
      if f64Pack neg 0 = 0x8000000000000000#64 ∧ neg' = false then 0 else f64Pack neg 0 := by
  revert neg neg'
  decide

/-- The sum with a zero keeps every value but `-0.0`, which `+0.0` makes `+0.0`. -/
theorem fadd_zero {x : F64} (hx : f64IsNaN x = false) (neg : Bool) :
    fadd x (f64Pack neg 0) = if x = 0x8000000000000000#64 ∧ neg = false then 0 else x := by
  by_cases hzero : f64Exp x < 2047 ∧ f64Mag x = 0
  · obtain ⟨hfinite, hmag⟩ := hzero
    rw [fadd_of_finite hfinite (f64Exp_zero_lt neg), f64Val_zero, f64Val_of_f64Mag_zero hmag, Int.add_zero,
      if_pos rfl, f64Neg_zero, zero_sum_eq, eq_zero_of_f64Mag hfinite hmag]
  · have hne : x ≠ 0x8000000000000000#64 := by
      rintro rfl
      exact hzero ⟨by decide, f64Mag_zero true⟩
    rw [if_neg (fun ⟨h, _⟩ => hne h)]
    rcases finite_or_infinite hx with hfinite | ⟨hinf, -⟩
    · have hpos : 0 < f64Mag x := Nat.pos_of_ne_zero fun hmag => hzero ⟨hfinite, hmag⟩
      obtain ⟨hnonzero, hsign, habs⟩ := f64Val_of_pos hpos
      rw [fadd_of_finite hfinite (f64Exp_zero_lt neg), f64Val_zero, Int.add_zero, if_neg hnonzero, hsign, habs]
      exact f64Pack_rneBits_f64Mag hfinite
    · exact fadd_infinite_of_finite hinf (f64Exp_zero_lt neg)

/-- `1.0 - 0.0` is 1.0. -/
theorem fsub_one_zero : fsub f64One 0 = f64One := by
  rw [fsub, show fneg 0 = f64Pack true 0 by decide, fadd_zero (by decide), if_neg (by decide)]

/-! ### The interpolation -/

theorem f64Canon_of_not_nan {x : F64} (h : f64IsNaN x = false) : f64Canon x = x := by
  simp [f64Canon, h]

/-- `Canon` answers a NaN only as the canonical one. -/
theorem eq_canonNaN_of_nan_f64Canon {x : F64} (h : f64IsNaN (f64Canon x) = true) : f64Canon x = f64CanonNaN := by
  cases hx : f64IsNaN x
  · rw [f64Canon_of_not_nan hx, hx] at h
    cases h
  · simp [f64Canon, hx]

/-- The canonical NaN in either product is the answer. -/
theorem interpolate_of_nan_product {lo hi t : F64}
    (h : fmul lo (fsub f64One t) = f64CanonNaN ∨ fmul hi t = f64CanonNaN) : interpolate lo hi t = f64CanonNaN := by
  have hnan : f64IsNaN f64CanonNaN = true := by decide
  have hsum : fadd (fmul lo (fsub f64One t)) (fmul hi t) = f64CanonNaN :=
    fadd_of_nan (h.imp (fun hlo => by rw [hlo, hnan]) (fun hhi => by rw [hhi, hnan]))
  rw [interpolate, hsum]
  decide

/-- At `t = 0` the interpolation is `lo` plus the zero of the sign of `hi`. -/
theorem interpolate_zero {lo hi : F64} (hlo : f64IsNaN lo = false) (hhi : f64Exp hi < 2047) :
    interpolate lo hi 0 = if lo = 0x8000000000000000#64 ∧ f64Neg hi = false then 0 else lo := by
  rw [interpolate, fsub_one_zero, fmul_one hlo, fmul_zero hhi, fadd_zero hlo]
  split
  · decide
  · exact f64Canon_of_not_nan hlo

/-- Settles O44: a product with 1.0, one with `+0.0`, and the sum of the two. -/
theorem interpolationAtZero : Obligations.InterpolationAtZero := by
  intro lo hi
  refine ⟨fun hlo hhi => interpolate_zero hlo (Nat.lt_of_le_of_ne (f64Exp_le hi) hhi), ?_⟩
  rintro (hlo | hhi)
  · exact interpolate_of_nan_product (.inl (fmul_of_nan (.inl hlo)))
  · exact interpolate_of_nan_product (.inr (fmul_zero_of_not_finite hhi))

/-- Settles O45: a NaN operand makes its product the canonical NaN, and `Canon` lets no other NaN through. -/
theorem interpolationNaNIsCanonical : Obligations.InterpolationNaNIsCanonical := by
  refine fun lo hi t => ⟨fun h => interpolate_of_nan_product ?_, eq_canonNaN_of_nan_f64Canon⟩
  exact h.imp (fun hlo => fmul_of_nan (.inl hlo)) (fun hhi => fmul_of_nan (.inl hhi))

end Sys2Proof.Proofs.Interpolation

/-! ## The register reads (spec/44_debug.md R230 to R238)

A read leaves the engine as it was and answers one value; it ends early only on a halted engine, unless the register is
`STATUS` or `CONFIG`, and on a dimension operand that names no cache entry. -/
namespace Sys2Proof.Proofs.Debug

open Sys2Proof Sys2Proof.Machine
open Sys2Proof.Proofs.Builder (dimOperand_of_lt dimOperand_of_ge)
open Sys2Proof.Proofs.SelectionOutcome (faults_answer_error)

section read

variable {s : State} {a : Word}

/-- The word that `RDREG.DIM` answers is the number of the dimension (R231). -/
theorem zeroExtend_dim (d : Dim) : d.zeroExtend 64 = BitVec.ofNat 64 d.toNat := (BitVec.ofNat_toNat 64 d).symm

theorem readCache_of_lt (e : Engine) (ha : a.toNat < 32) (field : CacheEntry → Word) :
    readCache e a field = .ok (e, field (cacheAt e (BitVec.ofNat 5 a.toNat))) := by
  simp only [readCache, dimOperand_of_lt ha]

theorem readCache_of_ge (e : Engine) (ha : 32 ≤ a.toNat) (field : CacheEntry → Word) :
    readCache e a field = .error (raised .dimRange) := by
  simp only [readCache, dimOperand_of_ge ha]

/-- A command that reads a cache entry completes for a dimension below 32. -/
theorem answer_readCache (hrun : statusFaulted s.eng.status = false) (ha : a.toNat < 32) (field : CacheEntry → Word) :
    answer s (readCache s.eng a field) = .next { s with
      eng := { s.eng with rsp := okResponse (field (cacheAt s.eng (BitVec.ofNat 5 a.toNat))) } } := by
  rw [readCache_of_lt s.eng ha]
  exact answer_ok hrun

/-- It faults with `DIM_RANGE` from 32 on (R255). -/
theorem faults_answer_readCache (hrun : statusFaulted s.eng.status = false) (ha : 32 ≤ a.toNat)
    (field : CacheEntry → Word) : Faults s (answer s (readCache s.eng a field)) 2 false := by
  rw [readCache_of_ge s.eng ha]
  exact faults_answer_error hrun (raised .dimRange)

end read

/-- Settles O46: each body is a success on the engine as it was; only `DIM` is widened to a word. -/
theorem rdregReadsTheEngineRegisters : Obligations.RdregReadsTheEngineRegisters := by
  intro s hrun
  have hdim : exec .rdregDim s =
      .next { s with eng := { s.eng with rsp := okResponse (BitVec.ofNat 64 s.eng.dim.toNat) } } := by
    rw [← zeroExtend_dim]
    exact answer_ok hrun
  exact ⟨answer_ok hrun, hdim, answer_ok hrun, answer_ok hrun, answer_ok hrun⟩

/-- Settles O47: the two meanings are `answerAlways` of a success, which asks nothing of the state. -/
theorem rdregReadsStatusAndConfigAlways : Obligations.RdregReadsStatusAndConfigAlways :=
  fun _ => ⟨rfl, rfl⟩

/-- Settles O48: both fields are read through the one dimension operand. -/
theorem rdregReadsAnyCacheEntry : Obligations.RdregReadsAnyCacheEntry := by
  intro s a hrun
  exact ⟨fun ha => ⟨answer_readCache hrun ha CacheEntry.val, answer_readCache hrun ha CacheEntry.idx⟩,
    fun ha => ⟨faults_answer_readCache hrun ha CacheEntry.val, faults_answer_readCache hrun ha CacheEntry.idx⟩⟩

end Sys2Proof.Proofs.Debug

/-! ## Faults, refusals and what keeps `STATUS` (spec/60_exceptions.md R250 to R263)

Every fault of a command is one abort of its body, taken by `onFault` on the engine as it was. So the cases of a code say which
bodies abort with it, precision says which aborts a body has, and a halted engine runs no body at all. -/
namespace Sys2Proof.Proofs.Exceptions

open Sys2Proof Sys2Proof.Machine Sys2Proof.Proofs.Transfer
open Sys2Proof.Proofs.Ports (serve_of_decode)
open Sys2Proof.Proofs.Encoding (encodedCommandsDecodeBack decodedCommandsHaveOneWord unusedOperandsIgnored)
open Sys2Proof.Proofs.Selection (exec_setdim_of_none)
open Sys2Proof.Proofs.Builder (dimOperand_of_ge tblrdReadsTheTable)
open Sys2Proof.Proofs.Debug (rdregReadsAnyCacheEntry)
open Sys2Proof.Proofs.Normalizer (f64Floor_drawProduct_lt)
open Sys2Proof.Proofs.Extraction (exec_nextuint operand_mod_le)
open Sys2Proof.Proofs.SelectionOutcome (faults_answer_error faultEntry_onFault_abort unsigned32_eq exec_nextuint_eq_advance)

/-! ### The aborts a command can have (R252) -/

/-- The words of the commands that can wrap: `NEXTVAL`, `NEXTUINT` and `NEXTDBL`. -/
abbrev ExtractionWord (cw : Half) : Prop := cw = 5 ∨ cw = 6 ∨ cw = 7

/-- The abort `a` of a command with the word `cw` on engine `e` reports an architectural fault of a command, and is marked as
wrapped where the command moves past dimension 31. -/
structure CommandAbort (cw : Half) (e : Engine) (a : Abort) : Prop where
  code_ne : a.code ≠ .buildFail ∧ a.code ≠ .halted
  of_wrapped : a.wrapped = true → e.dim.toNat = 31 ∧ ExtractionWord cw ∧ (a.code = .idxRange ∨ a.code = .range)
  wrapped_of : FrLegal e.fr → e.dim.toNat = 31 → ExtractionWord cw → a.code = .idxRange ∨ a.code = .range →
    a.wrapped = true

section abort

variable {cw : Half} {t : Table} {e : Engine} {a : Abort}

/-- `ILLEGAL`, `DIM_RANGE` and `BOUNDS` come before any write, so no wrap can precede them. -/
theorem commandAbort_of_check {c : FaultCode} (hc : c = .illegal ∨ c = .dimRange ∨ c = .bounds) :
    CommandAbort cw e (raised c) := by
  obtain rfl | rfl | rfl := hc
  all_goals exact ⟨by decide, nofun, fun _ _ _ hcode => absurd hcode (by decide)⟩

/-- A command that is not an extraction has no wrap. -/
theorem commandAbort_of_not_extraction {c : FaultCode} (hcw : ¬ ExtractionWord cw) (hc : c = .idxRange ∨ c = .range) :
    CommandAbort cw e (raised c) := by
  refine ⟨?_, nofun, fun _ _ hextraction => absurd hextraction hcw⟩
  obtain rfl | rfl := hc <;> decide

theorem seek_abort {k : Nat} (hcw : ¬ ExtractionWord cw) (h : seek t e k = .error a) : CommandAbort cw e a := by
  obtain ⟨-, rfl⟩ | ⟨-, rfl⟩ := seek_error h
  · exact commandAbort_of_not_extraction hcw (.inl rfl)
  · exact commandAbort_of_not_extraction hcw (.inr rfl)

theorem advanceIndex_abort (hcw : ¬ ExtractionWord cw) (h : advanceIndex t e = .error a) : CommandAbort cw e a := by
  obtain ⟨-, rfl⟩ | rfl := advanceIndex_error h
  · exact commandAbort_of_not_extraction hcw (.inl rfl)
  · exact commandAbort_of_not_extraction hcw (.inr rfl)

/-- The move of an extraction command is marked as wrapped exactly at dimension 31. -/
theorem advanceDim_abort (hcw : ExtractionWord cw) (h : advanceDim t e = .error a) : CommandAbort cw e a := by
  obtain ⟨hdim, rfl⟩ | ⟨hdim, hwrap⟩ := advanceDim_error h
  · exact ⟨by decide, nofun, fun _ hlast => by omega⟩
  · obtain ⟨hwrapped, hcode⟩ := wrap_error hwrap
    have hlt : e.dim.toNat < 32 := e.dim.isLt
    refine ⟨?_, fun _ => ⟨by omega, hcw, hcode⟩, fun _ _ _ _ => hwrapped⟩
    obtain hcode | hcode := hcode <;> rw [hcode] <;> decide

theorem advanceAndAnswer_abort {w : Word} (hcw : ExtractionWord cw) (h : advanceAndAnswer t e w = .error a) :
    CommandAbort cw e a := advanceDim_abort hcw (advanceAndAnswer_error h)

/-- The range check of R203 could only fail for an `FR` outside of `[0, 1)`; the other faults come before the draw or from the
move after it. -/
theorem boundedDraw_abort {lo hi : Nat} (hcw : ExtractionWord cw) (hhi : hi ≤ 2 ^ 32)
    (h : boundedDraw t e lo hi = .error a) : CommandAbort cw e a := by
  obtain ⟨-, rfl⟩ | ⟨hlt, hfloor, rfl⟩ | ⟨-, -, hadvance⟩ := boundedDraw_error h
  · exact commandAbort_of_check (.inr (.inr rfl))
  · refine ⟨by decide, nofun, fun hfr _ _ _ => ?_⟩
    exact absurd (f64Floor_drawProduct_lt hfr (Nat.sub_pos_of_lt hlt) (by omega)) (Nat.not_lt_of_le hfloor)
  · exact advanceDim_abort hcw hadvance

theorem readCache_abort {w : Word} {field : CacheEntry → Word} (h : readCache e w field = .error a) :
    CommandAbort cw e a := by
  unfold readCache at h
  split at h
  · cases h
    exact commandAbort_of_check (.inr (.inl rfl))
  · cases h

end abort

/-! ### A command that answers an error (R252) -/

/-- `t` is `s` after the served engine took the fault of an abort that satisfies `P`. -/
def FaultTaken (P : Abort → Prop) (s t : State) : Prop := ∃ a, t = { s with eng := onFault s.eng a } ∧ P a

section error

variable {s t : State} {r : Response}

/-- An error response comes from an abort of the body. -/
theorem answer_faultTaken {P : Abort → Prop} {body : Except Abort (Engine × Word)}
    (hbody : ∀ a, body = .error a → P a) (hrun : statusFaulted s.eng.status = false) (h : answer s body = .next t)
    (hrsp : t.eng.rsp = some r) (herr : r.err = true) : FaultTaken P s t := by
  cases body with
  | error a =>
    cases (answer_error hrun).symm.trans h
    exact ⟨a, rfl, hbody a rfl⟩
  | ok result =>
    cases (answer_ok hrun).symm.trans h
    cases hrsp
    cases herr

theorem exec_faultTaken {i : Instr} (hrun : statusFaulted s.eng.status = false) (h : exec i s = .next t)
    (hrsp : t.eng.rsp = some r) (herr : r.err = true) : FaultTaken (CommandAbort (encodeWord i) s.eng) s t := by
  cases i with
  | setidx a => exact answer_faultTaken (fun _ => seek_abort (cw := 2) (by decide)) hrun h hrsp herr
  | seeddims a => exact answer_faultTaken (fun _ => seek_abort (cw := 8) (by decide)) hrun h hrsp herr
  | advidx =>
    refine answer_faultTaken (fun a habort => ?_) hrun h hrsp herr
    split at habort
    · cases habort
      exact advanceIndex_abort (by decide) ‹_›
    · cases habort
  | setdim a =>
    refine answer_faultTaken (fun b habort => ?_) hrun h hrsp herr
    split at habort
    · cases habort
      exact commandAbort_of_check (.inr (.inl rfl))
    · split at habort
      · cases habort
        cases refreshLoad_error ‹_›
        exact commandAbort_of_not_extraction (cw := 4) (by decide) (.inr rfl)
      · cases habort
  | nextval => exact answer_faultTaken (fun _ => advanceAndAnswer_abort (cw := 5) (by decide)) hrun h hrsp herr
  | nextdbl a b => exact answer_faultTaken (fun _ => advanceAndAnswer_abort (cw := 7) (by decide)) hrun h hrsp herr
  | nextuint a b =>
    rw [exec_nextuint] at h
    exact answer_faultTaken (fun _ => boundedDraw_abort (cw := 6) (by decide) (operand_mod_le b)) hrun h hrsp herr
  | tblrd a b =>
    refine answer_faultTaken (fun c habort => ?_) hrun h hrsp herr
    split at habort
    · cases habort
    all_goals
      cases habort
      exact commandAbort_of_check (.inr (.inl rfl))
  | rdregCval a => exact answer_faultTaken (fun _ => readCache_abort) hrun h hrsp herr
  | rdregCidx a => exact answer_faultTaken (fun _ => readCache_abort) hrun h hrsp herr
  | rdregStatus | rdregConfig =>
    cases h
    cases hrsp
    cases herr
  | getdimcnt | rdregIdx | rdregDim | rdregAcc | rdregFr | rdregProd =>
    exact answer_faultTaken (fun _ habort => by cases habort) hrun h hrsp herr

theorem serve_faultTaken {c : Command} (hrun : statusFaulted s.eng.status = false) (h : serve c s = .next t)
    (hrsp : t.eng.rsp = some r) (herr : r.err = true) : FaultTaken (CommandAbort c.cw s.eng) s t := by
  cases hdecode : decode c with
  | ok i =>
    obtain ⟨-, hword⟩ := decodedCommandsHaveOneWord c i hdecode
    rw [serve_of_decode hdecode] at h
    rw [← hword]
    exact exec_faultTaken hrun h hrsp herr
  | error reject =>
    rw [serve, hdecode] at h
    refine answer_faultTaken (fun a habort => ?_) hrun h hrsp herr
    cases habort
    exact commandAbort_of_check (.inl rfl)

end error

/-- The codes 1 to 5 are those of commands (R250). -/
theorem faultNumber_command {c : FaultCode} (h : c ≠ .buildFail ∧ c ≠ .halted) :
    1 ≤ (faultNumber c).toNat ∧ (faultNumber c).toNat ≤ 5 := by
  cases c with
  | buildFail => exact absurd rfl h.1
  | halted => exact absurd rfl h.2
  | illegal | dimRange | idxRange | bounds | range => decide

theorem faultNumber_movement_iff (c : FaultCode) :
    faultNumber c = 3 ∨ faultNumber c = 5 ↔ c = .idxRange ∨ c = .range := by
  cases c <;> decide

/-- Settles O53: the state after the command is the one before it with the abort taken, and the aborts of its word are known. -/
theorem faultsArePrecise : Obligations.FaultsArePrecise := by
  intro c s t r hrun hserve hrsp herr
  obtain ⟨a, rfl, hcode, hwrapped, hwraps⟩ := serve_faultTaken hrun hserve hrsp herr
  cases hrsp
  obtain ⟨hpos, hle⟩ := faultNumber_command hcode
  refine ⟨hpos, hle, rfl, a.wrapped, faultEntry_onFault_abort s.eng a, fun h => ?_, fun hfr hdim hcw hcause => ?_⟩
  · obtain ⟨hdim, hcw, hmove⟩ := hwrapped h
    exact ⟨hdim, hcw, (faultNumber_movement_iff a.code).2 hmove⟩
  · exact hwraps hfr hdim hcw ((faultNumber_movement_iff a.code).1 hcause)

/-! ### A halted engine (R253) -/

theorem exec_of_halted {s : State} (hhalted : statusFaulted s.eng.status = true) {i : Instr} (hstatus : i ≠ .rdregStatus)
    (hconfig : i ≠ .rdregConfig) : exec i s = .next (refusedHalted s) := by
  cases i with
  | rdregStatus => exact absurd rfl hstatus
  | rdregConfig => exact absurd rfl hconfig
  | _ => exact answer_halted hhalted

/-- The words of the two status reads decode to them, whatever the operands (R83). -/
theorem decode_statusRead {c : Command} {i : Instr} (hi : i = .rdregStatus ∨ i = .rdregConfig) (hcw : c.cw = encodeWord i) :
    decode c = .ok i := by
  obtain ⟨cw, a, b⟩ := c
  cases hcw
  have hback : decode (encode i) = .ok i := encodedCommandsDecodeBack i (by obtain rfl | rfl := hi <;> rfl)
  rw [← hback]
  refine unusedOperandsIgnored.1 _ a b _ _ ?_
  obtain rfl | rfl := hi <;> decide

/-- Settles O12: what decodes to another command and what does not decode are both refused. -/
theorem haltedEngineRefuses : Obligations.HaltedEngineRefuses := by
  intro s c hhalted
  refine ⟨fun hstatus hconfig => ?_, fun hcw => ?_, fun hcw => ?_⟩
  · cases hdecode : decode c with
    | ok i =>
      obtain ⟨-, hword⟩ := decodedCommandsHaveOneWord c i hdecode
      rw [serve_of_decode hdecode]
      refine exec_of_halted hhalted ?_ ?_
      · rintro rfl
        exact hstatus hword.symm
      · rintro rfl
        exact hconfig hword.symm
    | error reject =>
      rw [serve, hdecode]
      exact answer_halted hhalted
  · exact serve_of_decode (decode_statusRead (.inl rfl) hcw) s
  · exact serve_of_decode (decode_statusRead (.inr rfl) hcw) s

/-! ### What no step but a reset clears (R256, R263) -/

/-- What a step leaves of an engine: everything of the sequence once it has faulted, and a `WRAP` that is set. -/
def KeepsStatus (e e' : Engine) : Prop :=
  (statusFaulted e.status = true → e'.status = e.status ∧ e'.idx = e.idx ∧ e'.dim = e.dim ∧ e'.cache = e.cache ∧
    e'.fr = e.fr ∧ e'.prod = e.prod) ∧
  (statusWrap e.status = true → statusWrap e'.status = true)

theorem keepsStatus_refl (e : Engine) : KeepsStatus e e := ⟨fun _ => ⟨rfl, rfl, rfl, rfl, rfl, rfl⟩, id⟩

/-- An engine that runs has to keep its `WRAP` only. -/
theorem keepsStatus_of_running {e e' : Engine} (hrun : statusFaulted e.status = false)
    (hwrap : statusWrap e.status = true → statusWrap e'.status = true) : KeepsStatus e e' :=
  ⟨fun hhalted => (Bool.false_ne_true (hrun.symm.trans hhalted)).elim, hwrap⟩

theorem statusWrap_commandEffect {t : Table} {e e' : Engine} (h : CommandEffect t e e')
    (hwrap : statusWrap e.status = true) : statusWrap e'.status = true := by
  obtain hstatus | hstatus := Block.commandEffect_status h <;> rw [hstatus]
  · exact hwrap
  · exact statusWrap_setWrap _

theorem statusWrap_onFault {e : Engine} (a : Abort) (hwrap : statusWrap e.status = true) :
    statusWrap (onFault e a).status = true := by
  obtain ⟨-, -, -, hentry, -, -⟩ := faultEntry_onFault_abort e a
  rw [hentry, hwrap, Bool.true_or]

theorem transferEffect_keepsStatus {t : Table} {e e' : Engine} (h : TransferEffect t e e') : KeepsStatus e e' := by
  cases h with
  | completed hrun hcommand w =>
    refine keepsStatus_of_running hrun fun hwrap => ?_
    rw [respond_status]
    exact statusWrap_commandEffect hcommand hwrap
  | faulted hrun a => exact keepsStatus_of_running hrun (statusWrap_onFault a)
  | refused | read | taken | strapped => exact keepsStatus_refl e

/-- After a transfer with one engine each engine is as it was, or is the one that took part. -/
theorem servesOne_getElem? {s t : State} {k : Nat} {e : Engine} (h : ServesOne s t) (he : (engines s)[k]? = some e) :
    ∃ e', (engines t)[k]? = some e' ∧ (e' = e ∨ TransferEffect s.table e e') := by
  obtain ⟨-, -, -, lower, served, served', upper, hengines, hengines', heffect⟩ := h
  have hset : engines t = (engines s).set lower.length served' := by simp [hengines, hengines']
  rw [hset]
  by_cases hk : lower.length = k
  · subst hk
    have hserved : served = e := by simpa [hengines] using he
    exact ⟨served', by simp [hengines], .inr (hserved ▸ heffect)⟩
  · exact ⟨e, (List.getElem?_set_ne hk).trans he, .inl rfl⟩

/-- Settles O54: an idle step keeps every engine, and a transfer writes `STATUS` only in an engine that runs. -/
theorem onlyResetClearsStatus : Obligations.OnlyResetClearsStatus := by
  intro s t k e hb hreset hstep he
  obtain ⟨hbuilding, -⟩ | ⟨-, rfl | ⟨rest, hpick, -⟩ | hserves⟩ := step_next_cases hstep
  · exact absurd hbuilding hb
  · exact ⟨e, he, keepsStatus_refl e⟩
  · exact absurd hpick (hreset rest)
  · obtain ⟨e', he', rfl | heffect⟩ := servesOne_getElem? hserves he
    · exact ⟨e', he', keepsStatus_refl e'⟩
    · exact ⟨e', he', transferEffect_keepsStatus heffect⟩

/-! ### The cases of `DIM_RANGE`, `BOUNDS` and `IDX_RANGE` (R254, R255, R257) -/

/-- Settles O50: a dimension operand of 32 or more names no dimension, for any of the commands that read one. -/
theorem dimensionRangeFaults : Obligations.DimensionRangeFaults := by
  intro s a b hrun
  refine ⟨fun ha => ⟨?_, (rdregReadsAnyCacheEntry s a hrun).2 ha⟩, (tblrdReadsTheTable s a b hrun).2⟩
  rw [exec_setdim_of_none (dimOperand_of_ge ha)]
  exact faults_answer_error hrun (raised .dimRange)

theorem boundedDraw_of_ge (t : Table) (e : Engine) {lo hi : Nat} (h : hi ≤ lo) :
    boundedDraw t e lo hi = .error (raised .bounds) := if_pos h

/-- Settles O51: the bounds are checked before anything else. -/
theorem emptyRangeFaults : Obligations.EmptyRangeFaults := by
  intro s a b hrun hle
  rw [exec_nextuint, boundedDraw_of_ge s.table s.eng hle]
  exact faults_answer_error hrun (raised .bounds)

theorem seek_of_ge (t : Table) (e : Engine) {k : Nat} (hk : 2 ^ 63 ≤ k) :
    seek t e k = .error (raised .idxRange) := if_pos hk

theorem faults_answer_seek {s : State} {k : Nat} (hrun : statusFaulted s.eng.status = false) (hk : 2 ^ 63 ≤ k) :
    Faults s (answer s (seek s.table s.eng k)) 3 false := by
  rw [seek_of_ge s.table s.eng hk]
  exact faults_answer_error hrun (raised .idxRange)

section top

variable {e : Engine} (t : Table) (hidx : e.idx.toNat = 2 ^ 63 - 1)

include hidx

theorem advanceIndex_of_top : advanceIndex t e = .error (raised .idxRange) := by
  have hlimit : Config.idxLimit ≤ e.idx.toNat + 1 := by rw [hidx]; decide
  exact if_pos hlimit

/-- At dimension 31 the index advance is reached through the wrap, which marks its fault (R148, R252). -/
theorem advanceAndAnswer_of_top (hdim : e.dim.toNat = 31) (w : Word) :
    advanceAndAnswer t e w = .error { code := .idxRange, wrapped := true } := by
  have hadvance := advanceIndex_of_top (e := { e with status := statusSetWrap e.status }) t hidx
  have hlast : ¬ e.dim.toNat < 31 := by omega
  simp only [advanceAndAnswer, advanceDim, if_neg hlast, wrap, hadvance, raised]

end top

/-- Settles O49: each command ends in a seek or an index advance at its limit; those that wrap mark the fault. -/
theorem indexRangeFaults : Obligations.IndexRangeFaults := by
  intro s a b hrun
  have htop (hidx : s.eng.idx.toNat = 2 ^ 63 - 1) (hdim : s.eng.dim.toNat = 31) (w : Word) :
      Faults s (answer s (advanceAndAnswer s.table s.eng w)) 3 true := by
    rw [advanceAndAnswer_of_top s.table hidx hdim]
    exact faults_answer_error hrun { code := .idxRange, wrapped := true }
  refine ⟨fun ha => ?setidx, fun hseed => ?seeddims, fun hidx => ?advidx,
    fun hidx hdim => ⟨htop hidx hdim _, htop hidx hdim _⟩, fun hidx hdim hfr hlt hbudget => ?nextuint⟩
  case setidx => exact faults_answer_seek hrun ha
  case seeddims =>
    rw [← unsigned32_eq] at hseed
    exact faults_answer_seek hrun hseed
  case advidx =>
    rw [exec, execAdvidx, advanceIndex_of_top s.table hidx]
    exact faults_answer_error hrun (raised .idxRange)
  case nextuint =>
    obtain ⟨w, hexec⟩ := exec_nextuint_eq_advance hfr hlt hbudget
    rw [hexec]
    exact htop hidx hdim w

end Sys2Proof.Proofs.Exceptions

/-! ## The build, reset, a held response and the straps (spec/70_reset_and_hazards.md R290 to R297)

While the build runs the step is the build, which writes `STATUS` only. Afterwards an action that cannot happen waits in the
host's list and the rest of the list is looked at; a reset and a change of a strap can always happen. -/
namespace Sys2Proof.Proofs.ResetAndHazards

open Sys2Proof Sys2Proof.Machine
open Sys2Proof.Proofs.Ports (focus_withHost step_of_pick)
open Sys2Proof.Proofs.Builder (step_of_building engines_mapEngines_getElem?)
open Sys2Proof.Proofs.Block (pristine_atReset)

/-! ### The build (R111, R290) -/

/-- However the build ends, it is over, and of every engine it writes the one register `STATUS`. -/
theorem build_eq_mapEngines (s : State) :
    ∃ (b : BState) (t : Table) (g : Word → Word), b ≠ .building ∧
      build s = mapEngines (fun e => { e with status := g e.status }) { s with bstate := b, table := t } := by
  obtain ⟨-, hbuild⟩ | ⟨-, hbuild⟩ := build_cases s
  · exact ⟨.built, buildTable s.params.dirParams, statusSetReady, nofun, hbuild⟩
  · exact ⟨.failed, s.table, statusSetFault .buildFail, nofun, hbuild⟩

/-- Settles O8: the step is the build, which leaves the host's list and every register but `STATUS`. -/
theorem commandsWaitForTheBuild : Obligations.CommandsWaitForTheBuild := by
  intro s hb
  obtain ⟨b, t, g, hover, hbuild⟩ := build_eq_mapEngines s
  refine ⟨build s, step_of_building hb, ?_⟩
  rw [hbuild]
  refine ⟨hover, rfl, rfl, ?_, fun k e he =>
    ⟨_, engines_mapEngines_getElem? (s := { s with bstate := b, table := t }) he _, rfl⟩⟩
  rw [engines_mapEngines, List.length_map]
  rfl

/-! ### Reset (R290, R292, R293) -/

/-- Engine `k` after a reset of the block. -/
theorem engines_resetBlock_getElem? {s : State} {k : Nat} {e : Engine} (he : (engines s)[k]? = some e) :
    (engines (resetBlock s))[k]? = some (resetEngine s.params.nvSource e) := by
  rw [engines_resetBlock, List.getElem?_map, he, Option.map_some]

theorem cacheAt_resetEngine (nv : Config.NvSource) (e : Engine) (d : Dim) :
    cacheAt (resetEngine nv e) d = { val := 0, idx := 0 } :=
  (pristine_atReset e.strap nv e.observed).2 d

/-- Settles O15: the pulse can always happen, and each engine becomes `Engine.atReset` with the strap it has. -/
theorem resetPulseRestoresEveryEngine : Obligations.ResetPulseRestoresEveryEngine := by
  intro s rest hb hhost
  have hpick : pick s s.host = some (.reset, rest) := hhost ▸ pick_ready rfl
  refine ⟨resetBlock { s with host := rest }, step_of_pick hb hpick, resetBlock_bstate _, resetBlock_host _,
    resetBlock_params _, ?_, fun k e he => ?_⟩
  · rw [engines_resetBlock, List.length_map]
    rfl
  · exact ⟨resetEngine s.params.nvSource e, engines_resetBlock_getElem? (s := { s with host := rest }) he,
      rfl, rfl, cacheAt_resetEngine s.params.nvSource e, rfl, rfl, rfl, rfl, rfl, rfl⟩

/-! ### Transfers with an engine that the block has (R80, R273) -/

section served

variable {k : Nat} {s s1 : State} (hfocus : focus k s = some s1)

include hfocus

theorem focus_withHost_eq_some (l : List HostEvent) : focus k { s with host := l } = some { s1 with host := l } := by
  rw [focus_withHost, hfocus, Option.map_some]

theorem driveStrap_of_focus (level : Bool) :
    driveStrap k level s = .next { s1 with eng := { s1.eng with strap := level } } := by
  rw [driveStrap, hfocus]

theorem transferResponse_of_focus {r : Response} (hrsp : s1.eng.rsp = some r) :
    transferResponse k s =
      .next { s1 with eng := { s1.eng with rsp := none, observed := s1.eng.observed ++ [r] } } := by
  simp only [transferResponse, hfocus, hrsp, Option.toList_some]

end served

/-- Settles O16: the change of the pin can always happen, and it is written to the field `strap` alone. -/
theorem strapIsSampledAtResetOnly : Obligations.StrapIsSampledAtResetOnly := by
  intro s s1 k level rest hb hhost hfocus
  have hpick : pick s s.host = some (.strap k level, rest) := hhost ▸ pick_ready rfl
  calc step s = driveStrap k level { s with host := rest } := step_of_pick hb hpick
    _ = _ := driveStrap_of_focus (focus_withHost_eq_some hfocus rest) level

/-! ### A held response (R296) -/

/-- With the build over and no action that can happen the block is idle (R269). -/
theorem step_of_pick_none {s : State} (hb : s.bstate ≠ .building) (hpick : pick s s.host = none) :
    step s = .next s := by
  obtain ⟨hbuilding, -⟩ | ⟨-, hstep⟩ := step_cases s
  · exact absurd hbuilding hb
  · obtain ⟨-, hidle⟩ | ⟨a, rest, hsome, -⟩ := hostTransfer_cases s
    · exact hstep.trans hidle
    · cases hpick.symm.trans hsome

/-- An action that cannot happen stays in front of what is left of the list. -/
theorem pick_waiting {s : State} {a : HostEvent} (h : actionReady s a = false) (l : List HostEvent) :
    pick s (a :: l) = (pick s l).map fun p => (p.1, a :: p.2) := by
  cases hpick : pick s l <;> simp [pick, h, hpick]

section held

variable {s : State} {k : Nat} {e : Engine} {r : Response} (he : (engines s)[k]? = some e) (hrsp : e.rsp = some r)

include he hrsp

theorem actionReady_command_of_held (c : Command) : actionReady s (.command k c) = false := by
  simp [actionReady, he, cmdReady, hrsp]

theorem actionReady_take_of_held : actionReady s (.take k) = true := by
  simp [actionReady, he, rspValid, hrsp]

end held

/-- Settles O9: the command is no action that can happen, so alone it leaves nothing to do, and before the taking it waits. -/
theorem heldResponseBlocksCommands : Obligations.HeldResponseBlocksCommands := by
  intro s s1 k c r hb hfocus hrsp
  obtain ⟨-, -, he, -⟩ := focus_eq_some hfocus
  have hwait := pick_waiting (actionReady_command_of_held he hrsp c)
  refine ⟨fun hhost => ?alone, fun rest hhost => ?beforeTaking⟩
  case alone =>
    have hpick : pick s s.host = none := by
      rw [hhost, hwait]
      rfl
    exact step_of_pick_none hb hpick
  case beforeTaking =>
    have hpick : pick s s.host = some (.take k, .command k c :: rest) := by
      rw [hhost, hwait, pick_ready (actionReady_take_of_held he hrsp), Option.map_some]
    calc step s = transferResponse k { s with host := .command k c :: rest } := step_of_pick hb hpick
      _ = _ := transferResponse_of_focus (focus_withHost_eq_some hfocus _) hrsp

end Sys2Proof.Proofs.ResetAndHazards
